-- ==== Sys2Proof/Word.lean ====
section
/-! DEFINITION. The machine's units of data, with the names the spec's rules give them (R6, R8, R20, R71, R72). -/

namespace Sys2Proof

/-- One byte: a general register, a memory cell, a timer, an immediate `nn` (R8, R20, R50). -/
abbrev Byte := BitVec 8

/-- 16 bits: the instruction word, `I`, `PC`, a stack slot (R24, R26, R29, R70). -/
abbrev Word := BitVec 16

/-- A 12-bit immediate address `nnn` (R72). -/
abbrev Addr := BitVec 12

/-- The name of one of the sixteen general registers `V0` to `VF` (R20). -/
abbrev Reg := Fin 16

/-- `VF`, register 0xF, which doubles as the flag output (R22). -/
abbrev Reg.vf : Reg := 15

/-- A framebuffer column, 0..63 (R35). -/
abbrev Col := Fin 64

/-- A framebuffer row, 0..31 (R35). -/
abbrev Row := Fin 32

/-- A key of the hexadecimal keypad, 0x0..0xF (R38). -/
abbrev Key := Fin 16

end Sys2Proof
end

