-- ==== Sys2Proof/Syntax.lean ====
section
/-! DEFINITION. The 34 instructions (R77, R78), one constructor per row of spec/opcode_table.json, in its order. -/

namespace Sys2Proof

/-- The instruction set. A register operand is a register's name, an immediate has its field's width (R72), and the
sprite height `n` of `Dxyn` is a count (R72: 0..15, checked by `Instr.wellFormed`). -/
inductive Instr where
  /-- 00E0, CLS (R160). -/
  | cls
  /-- 00EE, RET (R101). -/
  | ret
  /-- 1nnn, JP addr (R102). -/
  | jp (nnn : Addr)
  /-- 2nnn, CALL addr (R103). -/
  | call (nnn : Addr)
  /-- 3xnn, SE Vx, byte (R104). -/
  | seByte (x : Reg) (nn : Byte)
  /-- 4xnn, SNE Vx, byte (R105). -/
  | sneByte (x : Reg) (nn : Byte)
  /-- 5xy0, SE Vx, Vy (R106). -/
  | seReg (x y : Reg)
  /-- 6xnn, LD Vx, byte (R121). -/
  | ldByte (x : Reg) (nn : Byte)
  /-- 7xnn, ADD Vx, byte (R122). -/
  | addByte (x : Reg) (nn : Byte)
  /-- 8xy0, LD Vx, Vy (R123). -/
  | ldReg (x y : Reg)
  /-- 8xy1, OR Vx, Vy (R124). -/
  | orReg (x y : Reg)
  /-- 8xy2, AND Vx, Vy (R125). -/
  | andReg (x y : Reg)
  /-- 8xy3, XOR Vx, Vy (R126). -/
  | xorReg (x y : Reg)
  /-- 8xy4, ADD Vx, Vy (R127). -/
  | addReg (x y : Reg)
  /-- 8xy5, SUB Vx, Vy (R128). -/
  | subReg (x y : Reg)
  /-- 8xy6, SHR Vx (R129); `y` is in the word and ignored by the operation. -/
  | shr (x y : Reg)
  /-- 8xy7, SUBN Vx, Vy (R130). -/
  | subnReg (x y : Reg)
  /-- 8xyE, SHL Vx (R131); `y` is in the word and ignored by the operation. -/
  | shl (x y : Reg)
  /-- 9xy0, SNE Vx, Vy (R107). -/
  | sneReg (x y : Reg)
  /-- Annn, LD I, addr (R140). -/
  | ldI (nnn : Addr)
  /-- Bnnn, JP V0, addr (R108). -/
  | jpV0 (nnn : Addr)
  /-- Cxnn, RND Vx, byte (R132). -/
  | rnd (x : Reg) (nn : Byte)
  /-- Dxyn, DRW Vx, Vy, nibble (R161). -/
  | drw (x y : Reg) (n : Nat)
  /-- Ex9E, SKP Vx (R170). -/
  | skp (x : Reg)
  /-- ExA1, SKNP Vx (R171). -/
  | sknp (x : Reg)
  /-- Fx07, LD Vx, DT (R172). -/
  | ldVxDt (x : Reg)
  /-- Fx0A, LD Vx, K (R173). -/
  | ldVxKey (x : Reg)
  /-- Fx15, LD DT, Vx (R174). -/
  | ldDtVx (x : Reg)
  /-- Fx18, LD ST, Vx (R175). -/
  | ldStVx (x : Reg)
  /-- Fx1E, ADD I, Vx (R141). -/
  | addI (x : Reg)
  /-- Fx29, LD F, Vx (R142). -/
  | ldFont (x : Reg)
  /-- Fx33, LD B, Vx (R143). -/
  | ldBcd (x : Reg)
  /-- Fx55, LD [I], Vx (R144). -/
  | storeRegs (x : Reg)
  /-- Fx65, LD Vx, [I] (R145). -/
  | loadRegs (x : Reg)
  deriving DecidableEq, Repr

end Sys2Proof
end

