-- ==== Sys2Proof/Decode.lean ====
section
/-! DEFINITION. The decoder (R70 to R82): the opcode table as rows of a mask, a match value and the instruction the
fields make; a word decodes to the row it matches in every fixed bit (R76) and is rejected by name otherwise (R80).
After it the encoder, from the same formats (R73). -/

namespace Sys2Proof

/-- Why bytes do not decode. -/
inductive DecodeError where
  /-- The word matches no row of the opcode table (R76, R192); `raw` is the whole word. Raised by `decodeWord`. -/
  | unknownOpcode (raw : Word)
  /-- Fewer than the two bytes every instruction takes (R70). Raised by `decode` on a list of bytes; the machine's own
  fetch never meets it, since it reads both bytes or none (R58). -/
  | truncated
  deriving DecidableEq, Repr

/-! The byte order of an instruction word (R55). -/

/-- "the byte at `a` in bits 15:8 and the byte at `a+1` in bits 7:0" (R55). -/
def wordOfBytes (hi lo : Byte) : Word := BitVec.ofNat 16 (hi.toNat * 256 + lo.toNat)

/-- Bits 15:8 of a word, the byte that stands first in memory (R55). -/
def highByte (w : Word) : Byte := BitVec.ofNat 8 (w.toNat / 256)

/-- Bits 7:0 of a word, the byte that stands second in memory (R55). -/
def lowByte (w : Word) : Byte := BitVec.ofNat 8 w.toNat

/-! The fields of an instruction word (R71). -/

/-- `x`, op[11:8]. -/
def fieldX (op : Word) : Reg := ⟨op.toNat / 256 % 16, Nat.mod_lt _ (by decide)⟩

/-- `y`, op[7:4]. -/
def fieldY (op : Word) : Reg := ⟨op.toNat / 16 % 16, Nat.mod_lt _ (by decide)⟩

/-- `n`, op[3:0]. -/
def fieldN (op : Word) : Nat := op.toNat % 16

/-- `nn`, op[7:0]. -/
def fieldNN (op : Word) : Byte := BitVec.ofNat 8 op.toNat

/-- `nnn`, op[11:0]. -/
def fieldNNN (op : Word) : Addr := BitVec.ofNat 12 op.toNat

/-- A row of the opcode table: the bits its format fixes, their values, and the instruction its fields make. -/
structure OpcodeRow where
  pattern : Word
  mask    : Word
  build   : Word → Instr

/-- The test of R76: `(op & mask) == match`. -/
def OpcodeRow.accepts (r : OpcodeRow) (op : Word) : Bool := op &&& r.mask == r.pattern

/-- Rows 00E0 to 7xnn of R77. -/
def rowsControl : List OpcodeRow :=
  [ ⟨0x00E0, 0xFFFF, fun _ => .cls⟩,
    ⟨0x00EE, 0xFFFF, fun _ => .ret⟩,
    ⟨0x1000, 0xF000, fun op => .jp (fieldNNN op)⟩,
    ⟨0x2000, 0xF000, fun op => .call (fieldNNN op)⟩,
    ⟨0x3000, 0xF000, fun op => .seByte (fieldX op) (fieldNN op)⟩,
    ⟨0x4000, 0xF000, fun op => .sneByte (fieldX op) (fieldNN op)⟩,
    ⟨0x5000, 0xF00F, fun op => .seReg (fieldX op) (fieldY op)⟩,
    ⟨0x6000, 0xF000, fun op => .ldByte (fieldX op) (fieldNN op)⟩,
    ⟨0x7000, 0xF000, fun op => .addByte (fieldX op) (fieldNN op)⟩ ]

/-- Rows 8xy0 to 9xy0 of R77. -/
def rowsRegister : List OpcodeRow :=
  [ ⟨0x8000, 0xF00F, fun op => .ldReg (fieldX op) (fieldY op)⟩,
    ⟨0x8001, 0xF00F, fun op => .orReg (fieldX op) (fieldY op)⟩,
    ⟨0x8002, 0xF00F, fun op => .andReg (fieldX op) (fieldY op)⟩,
    ⟨0x8003, 0xF00F, fun op => .xorReg (fieldX op) (fieldY op)⟩,
    ⟨0x8004, 0xF00F, fun op => .addReg (fieldX op) (fieldY op)⟩,
    ⟨0x8005, 0xF00F, fun op => .subReg (fieldX op) (fieldY op)⟩,
    ⟨0x8006, 0xF00F, fun op => .shr (fieldX op) (fieldY op)⟩,
    ⟨0x8007, 0xF00F, fun op => .subnReg (fieldX op) (fieldY op)⟩,
    ⟨0x800E, 0xF00F, fun op => .shl (fieldX op) (fieldY op)⟩,
    ⟨0x9000, 0xF00F, fun op => .sneReg (fieldX op) (fieldY op)⟩ ]

/-- Rows Annn to ExA1 of R77. -/
def rowsIndex : List OpcodeRow :=
  [ ⟨0xA000, 0xF000, fun op => .ldI (fieldNNN op)⟩,
    ⟨0xB000, 0xF000, fun op => .jpV0 (fieldNNN op)⟩,
    ⟨0xC000, 0xF000, fun op => .rnd (fieldX op) (fieldNN op)⟩,
    ⟨0xD000, 0xF000, fun op => .drw (fieldX op) (fieldY op) (fieldN op)⟩,
    ⟨0xE09E, 0xF0FF, fun op => .skp (fieldX op)⟩,
    ⟨0xE0A1, 0xF0FF, fun op => .sknp (fieldX op)⟩ ]

/-- Rows Fx07 to Fx65 of R77. -/
def rowsMisc : List OpcodeRow :=
  [ ⟨0xF007, 0xF0FF, fun op => .ldVxDt (fieldX op)⟩,
    ⟨0xF00A, 0xF0FF, fun op => .ldVxKey (fieldX op)⟩,
    ⟨0xF015, 0xF0FF, fun op => .ldDtVx (fieldX op)⟩,
    ⟨0xF018, 0xF0FF, fun op => .ldStVx (fieldX op)⟩,
    ⟨0xF01E, 0xF0FF, fun op => .addI (fieldX op)⟩,
    ⟨0xF029, 0xF0FF, fun op => .ldFont (fieldX op)⟩,
    ⟨0xF033, 0xF0FF, fun op => .ldBcd (fieldX op)⟩,
    ⟨0xF055, 0xF0FF, fun op => .storeRegs (fieldX op)⟩,
    ⟨0xF065, 0xF0FF, fun op => .loadRegs (fieldX op)⟩ ]

/-- The opcode map, in the table's order (R77). -/
def opcodeRows : List OpcodeRow := rowsControl ++ rowsRegister ++ rowsIndex ++ rowsMisc

/-- Decoding one word (R76): the row it matches, or `unknownOpcode` with the whole word (R80). It reads only the word
(R81). -/
def decodeWord (op : Word) : Except DecodeError Instr :=
  match opcodeRows.find? (fun r => r.accepts op) with
  | some r => .ok (r.build op)
  | none => .error (.unknownOpcode op)

/-- Decoding the front of a list of bytes: the instruction and the bytes after it. Every instruction is two bytes
(R70). -/
def decode : List Byte → Except DecodeError (Instr × List Byte)
  | hi :: lo :: rest =>
    match decodeWord (wordOfBytes hi lo) with
    | .ok i => .ok (i, rest)
    | .error e => .error e
  | [] => .error .truncated
  | [_] => .error .truncated

/-! The encoder: the six formats of R73, each a sum of its nibbles at their places. -/

/-- Format NNN: `g n n n`. -/
def formatNNN (g : Nat) (nnn : Addr) : Word := BitVec.ofNat 16 (g * 4096 + nnn.toNat)

/-- Format XNN: `g x n n`. -/
def formatXNN (g : Nat) (x : Reg) (nn : Byte) : Word := BitVec.ofNat 16 (g * 4096 + x.val * 256 + nn.toNat)

/-- Formats XYK and XYN: `g x y k`. -/
def formatXYN (g : Nat) (x y : Reg) (n : Nat) : Word := BitVec.ofNat 16 (g * 4096 + x.val * 256 + y.val * 16 + n)

/-- Format XKK: `g x k k`. -/
def formatXKK (g : Nat) (x : Reg) (kk : Nat) : Word := BitVec.ofNat 16 (g * 4096 + x.val * 256 + kk)

/-- The word of an instruction (R73, R77). -/
def encode : Instr → Word
  | .cls => 0x00E0
  | .ret => 0x00EE
  | .jp nnn => formatNNN 0x1 nnn
  | .call nnn => formatNNN 0x2 nnn
  | .seByte x nn => formatXNN 0x3 x nn
  | .sneByte x nn => formatXNN 0x4 x nn
  | .seReg x y => formatXYN 0x5 x y 0x0
  | .ldByte x nn => formatXNN 0x6 x nn
  | .addByte x nn => formatXNN 0x7 x nn
  | .ldReg x y => formatXYN 0x8 x y 0x0
  | .orReg x y => formatXYN 0x8 x y 0x1
  | .andReg x y => formatXYN 0x8 x y 0x2
  | .xorReg x y => formatXYN 0x8 x y 0x3
  | .addReg x y => formatXYN 0x8 x y 0x4
  | .subReg x y => formatXYN 0x8 x y 0x5
  | .shr x y => formatXYN 0x8 x y 0x6
  | .subnReg x y => formatXYN 0x8 x y 0x7
  | .shl x y => formatXYN 0x8 x y 0xE
  | .sneReg x y => formatXYN 0x9 x y 0x0
  | .ldI nnn => formatNNN 0xA nnn
  | .jpV0 nnn => formatNNN 0xB nnn
  | .rnd x nn => formatXNN 0xC x nn
  | .drw x y n => formatXYN 0xD x y n
  | .skp x => formatXKK 0xE x 0x9E
  | .sknp x => formatXKK 0xE x 0xA1
  | .ldVxDt x => formatXKK 0xF x 0x07
  | .ldVxKey x => formatXKK 0xF x 0x0A
  | .ldDtVx x => formatXKK 0xF x 0x15
  | .ldStVx x => formatXKK 0xF x 0x18
  | .addI x => formatXKK 0xF x 0x1E
  | .ldFont x => formatXKK 0xF x 0x29
  | .ldBcd x => formatXKK 0xF x 0x33
  | .storeRegs x => formatXKK 0xF x 0x55
  | .loadRegs x => formatXKK 0xF x 0x65

/-- The two bytes of an instruction, as memory holds them (R55). -/
def encodeBytes (i : Instr) : List Byte := [highByte (encode i), lowByte (encode i)]

/-- The word whose bits the host's opcode table numbers: its low `nbits` bits are those of `w`, the rest are 0. -/
def tableWord (nbits w : Nat) : Word := BitVec.ofNat 16 (w % 2 ^ nbits)

/-- The instruction the decoder reads from the bytes of a table word, laid out as memory holds them. -/
def decodeTableWord (nbits w : Nat) : Option Instr :=
  match decode [highByte (tableWord nbits w), lowByte (tableWord nbits w)] with
  | .ok (i, _) => some i
  | .error _ => none

end Sys2Proof
end

