-- ==== Sys2Proof/Config.lean ====
section
/-! DEFINITION. What is fixed for the machine: the implementation parameters of R6, and the one free value of the
instruction set, the random byte of `Cxnn` (R7, R134). The other open parameter, FONTSET, is an argument of
construction (Machine/HostCommands.lean); its default bytes are in Machine/Memory.lean. -/

namespace Sys2Proof

/-- MEM_SIZE: addresses 0x000 to 0xFFF (R6, R50). -/
abbrev Config.memSize : Nat := 0x1000

/-- The bytes 0x000 to 0x04F hold the font (R6, R52, R53). -/
abbrev Config.fontSize : Nat := 80

/-- PROG_BASE: where `load_program` copies an image (R6, R224). -/
abbrev Config.progBase : Nat := 0x200

/-- PROG_MAX: the longest image `load_program` accepts (R6, R225). -/
abbrev Config.progMax : Nat := 3584

/-- PC_RESET (R6, R48). -/
abbrev Config.pcReset : Word := 0x200

/-- The random byte drawn by the n-th execution of `Cxnn`: a free draw, any value 0..255, with no distribution,
independence, seed or period (R134, decision D14; log 3). It has no body, so whatever is proved holds for every
sequence of draws. -/
opaque Config.rand8 : Nat → Byte

end Sys2Proof
end

