-- ==== Sys2Proof/Machine/State.lean ====
section
/-! DEFINITION. The machine's state as plain data: every piece of the spec's inventory (R48, R49), and three fields of
the model's own (the last command's result, the count of random draws, the host's commands still to come). -/

namespace Sys2Proof.Machine

/-- The argument of a refused host command (R191: "the argument"). -/
inductive BadArg where
  /-- The index given to `set_key` (R47). -/
  | keyIndex (k : Nat)
  /-- The coordinates given to `is_set` (R47). -/
  | pixelAt (px py : Nat)
  deriving DecidableEq, Repr

/-- The result a command returns to the host (R191, R44). `pixel` is the value `is_set` returns (R44). -/
inductive Result where
  /-- Code 0, success. -/
  | ok
  /-- Code 1: the fetched word matches no row of the opcode table (R192). -/
  | unknownOpcode (raw : Word)
  /-- Code 2: a call with SP = 16 (R193). -/
  | stackOverflow (raw : Word)
  /-- Code 3: a return with SP = 0 (R193). -/
  | stackUnderflow (raw : Word)
  /-- Code 4: a fetch at 0xFFF or above (R194). -/
  | pcOutOfBounds (pc : Word)
  /-- Code 5, abort class: a data access at 0x1000 or above (R196); `addr` is the lowest such address, 17 bits. -/
  | memoryOutOfBounds (raw : Word) (addr : BitVec 17)
  /-- Code 6, abort class: a key index of 16 or more (R197). -/
  | keyIndexOutOfRange (raw : Word) (value : Byte)
  /-- Code 7: a step while `halted` is 1 (R91). -/
  | halted
  /-- Code 8: an image longer than 3584 bytes (R199). -/
  | programTooLarge (len : Nat)
  /-- Code 9: a host argument out of range (R200). -/
  | badArgument (arg : BadArg)
  /-- The bool that `is_set` returns on success (R44, R45). -/
  | pixel (set : Bool)
  deriving DecidableEq, Repr

/-- The host's commands (R45). -/
inductive Command where
  /-- Construct the core again, with the 80 bytes of FONTSET (R220, R53). -/
  | construct (fontset : Vector Byte 80)
  /-- `load_program(bytes)` (R224, R225). -/
  | loadProgram (bytes : List Byte)
  /-- `reset` (R221). -/
  | reset
  /-- `step(logging)` (R90, R96). -/
  | step (logging : Bool)
  /-- `tick_timers` (R205). -/
  | tickTimers
  /-- `set_key(k, pressed)` (R46). -/
  | setKey (k : Nat) (pressed : Bool)
  /-- `is_set(px, py)` (R44). -/
  | isSet (px py : Nat)
  deriving DecidableEq, Repr

/-- Memory (R50) as the bytes that differ from its contents at power-on: (address, byte) pairs, addresses strictly
rising, no entry equal to what an unlisted address reads as (`Memory.wf` in Machine/Memory.lean). -/
abbrev Memory := List Host.Cell

/-- The framebuffer, 32 rows of 64 one-bit cells (R35): cell (px, py) is element px of row py, so that the rows laid
end to end put it at the spec's linear index `px + py*64`. -/
abbrev Framebuffer := Vector (Vector Bool 64) 32

/-- A framebuffer with every cell 0 (R160). -/
def Framebuffer.clear : Framebuffer := Vector.replicate 32 (Vector.replicate 64 false)

/-- The state of the machine (R48, R49). -/
structure State where
  /-- `V0`..`VF` (R20). -/
  v : Vector Byte 16
  /-- The index register `I` (R24). -/
  i : Word
  /-- The program counter (R26). -/
  pc : Word
  /-- The stack pointer, 0..16, the number of slots in use (R29). -/
  sp : Fin 17
  /-- The call stack's slots `S[0]`..`S[15]` (R29). -/
  stack : Vector Word 16
  /-- The delay timer (R32). -/
  dt : Byte
  /-- The sound timer (R33). -/
  st : Byte
  /-- The 4096 bytes of `MEM` (R50). -/
  mem : Memory
  /-- The framebuffer (R35). -/
  fb : Framebuffer
  /-- The input latch (R38). -/
  key : Vector Bool 16
  /-- The `halted` latch (R42). -/
  halted : Bool
  /-- The model's own: the result of the last command, which the host reads (R44, R45; log 1). -/
  result : Result
  /-- The model's own: how many draws of `Config.rand8` have been consumed (R134; log 3). -/
  draws : Nat
  /-- The model's own: the host's commands still to come, oldest first (R45, R206; log 2). -/
  schedule : List Command
  deriving DecidableEq, Repr

/-- Reasons for the machine to stop with a fault: there are none. Every error of the core is a result returned to the
host, after which "the core stays callable" (R97, R190), so it is a next state of the model (log 1). That is exact. -/
inductive Fault where
  deriving DecidableEq, Repr

/-- Reasons to give no meaning to an instruction. -/
inductive Refusal where
  /-- An instruction that has no meaning yet: only an arm of `exec` may raise it, and none does. It is safe: nothing is
  claimed of a refused instruction. -/
  | notModelled (mnemonic : String)
  deriving DecidableEq, Repr

/-- What every command answers. -/
abbrev Answer := Host.Outcome State Fault Refusal

/-- The machine at power-on, just constructed (R220, R48): registers, timers, stack and framebuffer 0, no key pressed,
PC = 0x200, memory at its power-on contents with nothing listed. -/
def State.reset : State where
  v := Vector.replicate 16 0
  i := 0
  pc := Config.pcReset
  sp := 0
  stack := Vector.replicate 16 0
  dt := 0
  st := 0
  mem := []
  fb := Framebuffer.clear
  key := Vector.replicate 16 false
  halted := false
  result := .ok
  draws := 0
  schedule := []

end Sys2Proof.Machine
end

