-- ==== Sys2Proof/Machine/Memory.lean ====
section
/-! DEFINITION. Memory and its operations (20_memory.md). A byte at a time (R56); wider work is a list of bytes at rising
addresses. None of these checks bounds: the one check of a block is `State.accessFault` (Machine/Operands.lean), made
before any access (R57). -/

namespace Sys2Proof

/-- The default FONTSET, glyphs 0 to 7 (R53, marked there "from general knowledge, not in source"; log 4). -/
def fontGlyphsLow : List Byte :=
  [0xF0, 0x90, 0x90, 0x90, 0xF0] ++ [0x20, 0x60, 0x20, 0x20, 0x70] ++
  [0xF0, 0x10, 0xF0, 0x80, 0xF0] ++ [0xF0, 0x10, 0xF0, 0x10, 0xF0] ++
  [0x90, 0x90, 0xF0, 0x10, 0x10] ++ [0xF0, 0x80, 0xF0, 0x10, 0xF0] ++
  [0xF0, 0x80, 0xF0, 0x90, 0xF0] ++ [0xF0, 0x10, 0x20, 0x40, 0x40]

/-- The default FONTSET, glyphs 8 to F (R53; log 4). -/
def fontGlyphsHigh : List Byte :=
  [0xF0, 0x90, 0xF0, 0x90, 0xF0] ++ [0xF0, 0x90, 0xF0, 0x10, 0xF0] ++
  [0xF0, 0x90, 0xF0, 0x90, 0x90] ++ [0xE0, 0x90, 0xE0, 0x90, 0xE0] ++
  [0xF0, 0x80, 0x80, 0x80, 0xF0] ++ [0xE0, 0x90, 0x90, 0x90, 0xE0] ++
  [0xF0, 0x80, 0xF0, 0x80, 0xF0] ++ [0xF0, 0x80, 0xF0, 0x80, 0x80]

/-- The default FONTSET, 80 bytes (R53; log 4). -/
def defaultFontset : List Byte := fontGlyphsLow ++ fontGlyphsHigh

end Sys2Proof

namespace Sys2Proof.Machine

/-- What an address reads as when nothing is listed for it: memory's contents at power-on, the font at 0x000-0x04F and 0
everywhere else (R48, R52). -/
def Memory.unlisted (a : Nat) : Byte := defaultFontset.getD a 0

/-- `MemRead(a, 1)` (R10). -/
def Memory.read : Memory → Nat → Byte
  | [], a => Memory.unlisted a
  | (b, w) :: m, a => if a = b then w else Memory.read m a

/-- `MemWrite(a, 1, v)` (R10), keeping the canonical form: a byte equal to what the unlisted address reads as is not
listed. -/
def Memory.write : Memory → Nat → Byte → Memory
  | [], a, v => if v = Memory.unlisted a then [] else [(a, v)]
  | (b, w) :: m, a, v =>
    if a < b then
      if v = Memory.unlisted a then (b, w) :: m else (a, v) :: (b, w) :: m
    else if a = b then
      if v = Memory.unlisted a then m else (a, v) :: m
    else (b, w) :: Memory.write m a v

/-- Every entry lies in the address space, differs from what its address reads as unlisted, and the addresses rise
strictly from `low`. -/
def Memory.wfFrom : Nat → Memory → Bool
  | _, [] => true
  | low, (a, v) :: m =>
    decide (low ≤ a) && decide (a < Config.memSize) && decide (v ≠ Memory.unlisted a) && Memory.wfFrom (a + 1) m

/-- The canonical form: equal memories are equal data. -/
def Memory.wf (m : Memory) : Bool := Memory.wfFrom 0 m

/-- Bytes stored at rising addresses from `a` (Fx33, Fx55, `load_program`). -/
def Memory.writeBytes : Memory → Nat → List Byte → Memory
  | m, _, [] => m
  | m, a, b :: bs => Memory.writeBytes (Memory.write m a b) (a + 1) bs

/-- `MemRead(a, 2)`, big-endian, used only by instruction fetch (R55). -/
def Memory.readWord (m : Memory) (a : Nat) : Word :=
  BitVec.ofNat 16 ((Memory.read m a).toNat * 256 + (Memory.read m (a + 1)).toNat)

/-- Memory after `reset`: 0x000-0x04F unchanged, every other byte 0 (R221), which is what it reads as unlisted. -/
def Memory.clearAboveFont (m : Memory) : Memory := m.filter (fun c => decide (c.1 < Config.fontSize))

end Sys2Proof.Machine
end

