-- ==== Sys2Proof/Machine/Ops.lean ====
section
/-! DEFINITION. The shared operations over registers, stack, framebuffer and latch, how an instruction ends, and how it
raises an error. -/

namespace Sys2Proof.Machine

/-! Registers (R10, R20). No register is hardwired. -/

/-- `V[x]`. -/
def State.reg (s : State) (x : Reg) : Byte := s.v[x]

/-- `V[x] <- b`. -/
def State.setReg (s : State) (x : Reg) (b : Byte) : State := { s with v := s.v.set x b }

/-- `I <- w` (R24). -/
def State.setIndex (s : State) (w : Word) : State := { s with i := w }

/-- `PC <- target` (R10). -/
def State.setPc (s : State) (w : Word) : State := { s with pc := w }

/-- `DT <- b` (R32). -/
def State.setDelay (s : State) (b : Byte) : State := { s with dt := b }

/-- `ST <- b` (R33). -/
def State.setSound (s : State) (b : Byte) : State := { s with st := b }

/-- The output `sound_timer` presented to the host (R33, R44). -/
def State.soundTimer (s : State) : Byte := s.st

/-- Memory replaced as a whole, by the result of `Memory.write` or `Memory.writeBytes`. -/
def State.setMem (s : State) (m : Memory) : State := { s with mem := m }

/-- The framebuffer replaced as a whole, by the result of a clear or a draw. -/
def State.setFb (s : State) (f : Framebuffer) : State := { s with fb := f }

/-- The result the command returns to the host (R44, R45). -/
def State.setResult (s : State) (r : Result) : State := { s with result := r }

/-! How a command ends. -/

/-- The command returns `Ok` (R97). -/
def finish (s : State) : Answer := .next (s.setResult .ok)

/-- Abort-class errors: `MemoryOutOfBounds` and `KeyIndexOutOfRange` (R191, R198). -/
def Result.aborts : Result → Bool
  | .memoryOutOfBounds _ _ => true
  | .keyIndexOutOfRange _ _ => true
  | .ok => false
  | .unknownOpcode _ => false
  | .stackOverflow _ => false
  | .stackUnderflow _ => false
  | .pcOutOfBounds _ => false
  | .halted => false
  | .programTooLarge _ => false
  | .badArgument _ => false
  | .pixel _ => false

/-- The numeric codes of R191. A bool returned by `is_set` is a success. -/
def Result.code : Result → Nat
  | .ok => 0
  | .unknownOpcode _ => 1
  | .stackOverflow _ => 2
  | .stackUnderflow _ => 3
  | .pcOutOfBounds _ => 4
  | .memoryOutOfBounds _ _ => 5
  | .keyIndexOutOfRange _ _ => 6
  | .halted => 7
  | .programTooLarge _ => 8
  | .badArgument _ => 9
  | .pixel _ => 0

/-- `raise E(info)` (R10): the command ends with the error as its result, an abort-class error sets `halted` (R198), and
nothing else changes (R195). This is the machine's whole exception entry: it saves nothing more, switches no mode and
transfers no control (R190, R202), and the PC it leaves is the one the fetch left, a + 2 (R195). There is no return
from it (R203): after a recoverable error the next step fetches at that PC, after an abort the host resets
(`State.afterReset` in Machine/HostCommands.lean) or constructs the core again. -/
def raise (e : Result) (s : State) : Answer := .next { s with result := e, halted := s.halted || e.aborts }

/-! Control transfer (R100). -/

/-- The skip: `PC <- PC + 2` (R100). -/
def State.skipNext (s : State) : State := s.setPc (s.pc + 2)

/-- Skip the next instruction if the condition holds, and return `Ok` (R100). -/
def skipIf (c : Bool) (s : State) : Answer := finish (if c then s.skipNext else s)

/-! The call stack (R30). -/

/-- `push(w)`: none if SP = 16 (StackOverflow), else the slot at SP written and SP one higher. -/
def State.push (s : State) (w : Word) : Option State :=
  if h : s.sp.val < 16 then
    some { s with stack := s.stack.set s.sp.val w h, sp := ⟨s.sp.val + 1, by omega⟩ }
  else none

/-- `pop()`: none if SP = 0 (StackUnderflow), else `S[SP-1]` and the state with SP one lower; the slot keeps its value
(R31). -/
def State.pop (s : State) : Option (Word × State) :=
  if _h : 0 < s.sp.val then
    some (s.stack[s.sp.val - 1]'(by omega), { s with sp := ⟨s.sp.val - 1, by omega⟩ })
  else none

/-! The framebuffer (R35 to R37). -/

/-- `FB[px,py]`. -/
def Framebuffer.cell (f : Framebuffer) (px : Col) (py : Row) : Bool := (f[py])[px]

/-- `FB[px,py] <- b`. -/
def Framebuffer.setCell (f : Framebuffer) (px : Col) (py : Row) (b : Bool) : Framebuffer :=
  f.set py ((f[py]).set px b)

/-- `xor_pixel(px, py)`: inverts the cell and returns the value it held before (R37). -/
def Framebuffer.xorPixel (f : Framebuffer) (px : Col) (py : Row) : Framebuffer × Bool :=
  (f.setCell px py (! f.cell px py), f.cell px py)

/-- `xor_pixel` over a list of cells in order, with the collision flag: `hit` only rises, when a cell was 1 before its
XOR (R161, R163). -/
def Framebuffer.xorPixels : Framebuffer → List (Col × Row) → Bool → Framebuffer × Bool
  | f, [], hit => (f, hit)
  | f, (px, py) :: rest, hit =>
    Framebuffer.xorPixels (f.xorPixel px py).1 rest (hit || (f.xorPixel px py).2)

/-! The input latch (R38). -/

/-- The keys from the highest index down. -/
def keysDescending : List Key := [15, 14, 13, 12, 11, 10, 9, 8] ++ [7, 6, 5, 4, 3, 2, 1, 0]

/-- The highest pressed key, if any is pressed (R173, R176). -/
def State.highestKey (s : State) : Option Key := keysDescending.find? (fun k => s.key[k])

end Sys2Proof.Machine
end

