-- ==== Sys2Proof/Machine/Operands.lean ====
section
/-! DEFINITION. The operand forms: immediates (R72), the one addressing mode I + k (R146), the block check before any
access (R57), register blocks (R144, R145), decimal digits (R143) and sprite pixels (R161, R162). -/

namespace Sys2Proof.Machine

/-- `zext_16(nnn)` (R72). -/
def immAddr (nnn : Addr) : Word := nnn.setWidth 16

/-- A byte zero-extended to 16 bits (R72, R108, R141). -/
def immByte (b : Byte) : Word := b.setWidth 16

/-- The key a register value names: none for a value above 15, which is not masked (R178). -/
def keyIndex (b : Byte) : Option Key := if h : b.toNat < 16 then some ⟨b.toNat, h⟩ else none

/-- The effective address I + k, an ordinary sum, never wrapped (R57, R146). -/
def State.effAddr (s : State) (k : Nat) : Nat := s.i.toNat + k

/-- The check of a block of `len` bytes from I, made before any access: the lowest address out of bounds,
`max(I, 0x1000)`, if the block holds one (R57, R196). An empty block is never out of bounds (R164). -/
def State.accessFault (s : State) (len : Nat) : Option (BitVec 17) :=
  if 0 < len ∧ Config.memSize < s.effAddr len then some (BitVec.ofNat 17 (max (s.effAddr 0) Config.memSize))
  else none

/-- The bytes of V0..V(len-1), in order (R144). -/
def State.regBlock (s : State) (len : Nat) : List Byte := s.v.toList.take len

/-- Registers V0..V(len-1) loaded from the bytes at `base` on, in order (R145). -/
def loadBlock (m : Memory) (base : Nat) : Nat → Vector Byte 16 → Vector Byte 16
  | 0, v => v
  | len + 1, v => (loadBlock m base len v).setIfInBounds len (Memory.read m (base + len))

/-- The hundreds, tens and ones digits of a byte (R143). -/
def bcdDigits (b : Byte) : List Byte :=
  [BitVec.ofNat 8 (b.toNat / 100), BitVec.ofNat 8 (b.toNat / 10 % 10), BitVec.ofNat 8 (b.toNat % 10)]

/-- The target column of sprite column `c`, wrapped (R162). -/
def wrapCol (vx : Byte) (c : Nat) : Col := ⟨(vx.toNat + c) % 64, Nat.mod_lt _ (by decide)⟩

/-- The target row of sprite row `r`, wrapped (R162). -/
def wrapRow (vy : Byte) (r : Nat) : Row := ⟨(vy.toNat + r) % 32, Nat.mod_lt _ (by decide)⟩

/-- Whether sprite byte `b` has its column `c` set: `(b AND (0x80 >> c)) != 0`, bit 7 leftmost (R161). -/
def spriteBit (b : Byte) (c : Nat) : Bool := b &&& ((0x80 : Byte) >>> c) != 0

/-- The cells that row `r` of a sprite hits, left to right (R161). -/
def spriteRow (b : Byte) (vx vy : Byte) (r : Nat) : List (Col × Row) :=
  ((List.range 8).filter (spriteBit b)).map (fun c => (wrapCol vx c, wrapRow vy r))

/-- The cells that an `n`-row sprite at I hits, in the order of the loops of R161. -/
def State.spriteCells (s : State) (vx vy : Byte) (n : Nat) : List (Col × Row) :=
  (List.range n).flatMap (fun r => spriteRow (s.mem.read (s.effAddr r)) vx vy r)

end Sys2Proof.Machine
end

