-- ==== Sys2Proof/Machine/Flags.lean ====
section
/-! DEFINITION. The values written to VF as a side effect (R23), each computed from the operands' exact values. -/

namespace Sys2Proof.Machine

/-- A flag as a register value: 1 or 0 (R23). -/
def flagByte (b : Bool) : Byte := if b then 1 else 0

/-- Carry of an addition: 1 if the true sum exceeds 255 (R127). -/
def carryFlag (a b : Byte) : Byte := flagByte (decide (255 < a.toNat + b.toNat))

/-- The strict comparison of a subtraction a - b: 1 if a > b, else 0, so 0 for equal operands (R128, R130). -/
def greaterFlag (a b : Byte) : Byte := flagByte (decide (b.toNat < a.toNat))

/-- The bit a right shift by one shifts out, bit 0 (R129). -/
def lowBitFlag (a : Byte) : Byte := a &&& 1

/-- The bit a left shift by one shifts out, bit 7 (R131). -/
def highBitFlag (a : Byte) : Byte := (a &&& 0x80) >>> 7

/-- The flag, then the result: the later write to the same register is the one that stays (R11, R23, R135). -/
def State.setFlagThenReg (s : State) (flag : Byte) (x : Reg) (result : Byte) : State :=
  (s.setReg Reg.vf flag).setReg x result

end Sys2Proof.Machine
end

