-- ==== Sys2Proof/Machine/Alu.lean ====
section
/-! DEFINITION. Loads, arithmetic, logic, shifts and the random byte (42_alu.md). Operands are sampled before any write
(R11); none raises an error. -/

namespace Sys2Proof.Machine

/-- 6xnn: `V[x] <- nn` (R121). -/
def execLdByte (x : Reg) (nn : Byte) (s : State) : Answer := finish (s.setReg x nn)

/-- 7xnn: `V[x] <- (vx + nn) mod 256`, no flag (R122). -/
def execAddByte (x : Reg) (nn : Byte) (s : State) : Answer := finish (s.setReg x (s.reg x + nn))

/-- 8xy0: `V[x] <- vy` (R123). -/
def execLdReg (x y : Reg) (s : State) : Answer := finish (s.setReg x (s.reg y))

/-- 8xy1: `V[x] <- vx OR vy` (R124). -/
def execOrReg (x y : Reg) (s : State) : Answer := finish (s.setReg x (s.reg x ||| s.reg y))

/-- 8xy2: `V[x] <- vx AND vy` (R125). -/
def execAndReg (x y : Reg) (s : State) : Answer := finish (s.setReg x (s.reg x &&& s.reg y))

/-- 8xy3: `V[x] <- vx XOR vy` (R126). -/
def execXorReg (x y : Reg) (s : State) : Answer := finish (s.setReg x (s.reg x ^^^ s.reg y))

/-- 8xy4: `VF <- (sum > 255 ? 1 : 0) ; V[x] <- sum mod 256` (R127). -/
def execAddReg (x y : Reg) (s : State) : Answer :=
  finish (s.setFlagThenReg (carryFlag (s.reg x) (s.reg y)) x (s.reg x + s.reg y))

/-- 8xy5: `VF <- (vx > vy ? 1 : 0) ; V[x] <- (vx - vy) mod 256` (R128). -/
def execSubReg (x y : Reg) (s : State) : Answer :=
  finish (s.setFlagThenReg (greaterFlag (s.reg x) (s.reg y)) x (s.reg x - s.reg y))

/-- 8xy6: `VF <- vx AND 1 ; V[x] <- vx >> 1`; Vy is not read (R129). -/
def execShr (x _y : Reg) (s : State) : Answer :=
  finish (s.setFlagThenReg (lowBitFlag (s.reg x)) x (s.reg x >>> 1))

/-- 8xy7: `VF <- (vy > vx ? 1 : 0) ; V[x] <- (vy - vx) mod 256` (R130). -/
def execSubnReg (x y : Reg) (s : State) : Answer :=
  finish (s.setFlagThenReg (greaterFlag (s.reg y) (s.reg x)) x (s.reg y - s.reg x))

/-- 8xyE: `VF <- (vx AND 0x80) >> 7 ; V[x] <- (vx << 1) mod 256`; Vy is not read (R131). -/
def execShl (x _y : Reg) (s : State) : Answer :=
  finish (s.setFlagThenReg (highBitFlag (s.reg x)) x (s.reg x <<< 1))

/-- Cxnn: `V[x] <- rand8 AND nn` (R132); the draw is a free value, and the count of draws moves on (R134; log 3). -/
def execRnd (x : Reg) (nn : Byte) (s : State) : Answer :=
  finish { s.setReg x (Config.rand8 s.draws &&& nn) with draws := s.draws + 1 }

end Sys2Proof.Machine
end

