-- ==== Sys2Proof/Machine/Control.lean ====
section
/-! DEFINITION. Control transfer and skips (41_control_flow.md). Each meaning starts with PC = a + 2 (R92). -/

namespace Sys2Proof.Machine

/-- 00EE: `t <- pop() ; PC <- t` (R101). -/
def execRet (s : State) : Answer :=
  match s.pop with
  | some (t, s') => finish (s'.setPc t)
  | none => raise (.stackUnderflow (encode .ret)) s

/-- 1nnn: `PC <- zext_16(nnn)` (R102). -/
def execJp (nnn : Addr) (s : State) : Answer := finish (s.setPc (immAddr nnn))

/-- 2nnn: `push(PC) ; PC <- zext_16(nnn)` (R103). -/
def execCall (nnn : Addr) (s : State) : Answer :=
  match s.push s.pc with
  | some s' => finish (s'.setPc (immAddr nnn))
  | none => raise (.stackOverflow (encode (.call nnn))) s

/-- 3xnn: `if vx = nn then PC <- PC + 2` (R104). -/
def execSeByte (x : Reg) (nn : Byte) (s : State) : Answer := skipIf (s.reg x == nn) s

/-- 4xnn: `if vx != nn then PC <- PC + 2` (R105). -/
def execSneByte (x : Reg) (nn : Byte) (s : State) : Answer := skipIf (s.reg x != nn) s

/-- 5xy0: `if vx = vy then PC <- PC + 2` (R106). -/
def execSeReg (x y : Reg) (s : State) : Answer := skipIf (s.reg x == s.reg y) s

/-- 9xy0: `if vx != vy then PC <- PC + 2` (R107). -/
def execSneReg (x y : Reg) (s : State) : Answer := skipIf (s.reg x != s.reg y) s

/-- Bnnn: `PC <- v0 + nnn`, not masked (R108). -/
def execJpV0 (nnn : Addr) (s : State) : Answer := finish (s.setPc (immByte (s.reg 0) + immAddr nnn))

end Sys2Proof.Machine
end

