-- ==== Sys2Proof/Machine/Display.lean ====
section
/-! DEFINITION. Clearing and drawing (44_display.md). -/

namespace Sys2Proof.Machine

/-- 00E0: every cell to 0 (R160). -/
def execCls (s : State) : Answer := finish (s.setFb Framebuffer.clear)

/-- Dxyn: XOR an 8-wide, `n`-high sprite at (vx, vy), wrapping per pixel, after the check of its bytes; VF is the
collision flag (R161 to R164). vx and vy are sampled before VF is written. -/
def execDrw (x y : Reg) (n : Nat) (s : State) : Answer :=
  match s.accessFault n with
  | some addr => raise (.memoryOutOfBounds (encode (.drw x y n)) addr) s
  | none =>
    finish ((s.setFb (s.fb.xorPixels (s.spriteCells (s.reg x) (s.reg y) n) false).1).setReg Reg.vf
      (flagByte (s.fb.xorPixels (s.spriteCells (s.reg x) (s.reg y) n) false).2))

end Sys2Proof.Machine
end

