-- ==== Sys2Proof/Machine/Index.lean ====
section
/-! DEFINITION. The index register and memory instructions (43_index_memory.md). None but `Annn`, `Fx1E` and `Fx29`
changes I (R147). -/

namespace Sys2Proof.Machine

/-- Annn: `I <- zext_16(nnn)` (R140). -/
def execLdI (nnn : Addr) (s : State) : Answer := finish (s.setIndex (immAddr nnn))

/-- Fx1E: `I <- (I + vx) mod 65536`, no flag (R141). -/
def execAddI (x : Reg) (s : State) : Answer := finish (s.setIndex (s.i + immByte (s.reg x)))

/-- Fx29: `I <- vx * 5`, vx not masked (R142). -/
def execLdFont (x : Reg) (s : State) : Answer := finish (s.setIndex (immByte (s.reg x) * 5))

/-- Fx33: the decimal digits of vx to I, I+1, I+2, after the check of all three (R143). -/
def execLdBcd (x : Reg) (s : State) : Answer :=
  match s.accessFault 3 with
  | some addr => raise (.memoryOutOfBounds (encode (.ldBcd x)) addr) s
  | none => finish (s.setMem (s.mem.writeBytes (s.effAddr 0) (bcdDigits (s.reg x))))

/-- Fx55: V0..Vx to I..I+x, after the check of the whole block (R144). -/
def execStoreRegs (x : Reg) (s : State) : Answer :=
  match s.accessFault (x.val + 1) with
  | some addr => raise (.memoryOutOfBounds (encode (.storeRegs x)) addr) s
  | none => finish (s.setMem (s.mem.writeBytes (s.effAddr 0) (s.regBlock (x.val + 1))))

/-- Fx65: V0..Vx from I..I+x, after the check of the whole block (R145). -/
def execLoadRegs (x : Reg) (s : State) : Answer :=
  match s.accessFault (x.val + 1) with
  | some addr => raise (.memoryOutOfBounds (encode (.loadRegs x)) addr) s
  | none => finish { s with v := loadBlock s.mem (s.effAddr 0) (x.val + 1) s.v }

end Sys2Proof.Machine
end

