-- ==== Sys2Proof/Machine/Keys.lean ====
section
/-! DEFINITION. Keypad and timer instructions (45_keys_timers.md). The latch is read as a level (R39). -/

namespace Sys2Proof.Machine

/-- Ex9E: skip if key vx is pressed; vx above 15 is an abort-class error (R170, R178). -/
def execSkp (x : Reg) (s : State) : Answer :=
  match keyIndex (s.reg x) with
  | some k => skipIf s.key[k] s
  | none => raise (.keyIndexOutOfRange (encode (.skp x)) (s.reg x)) s

/-- ExA1: skip if key vx is not pressed; vx above 15 is an abort-class error (R171, R178). -/
def execSknp (x : Reg) (s : State) : Answer :=
  match keyIndex (s.reg x) with
  | some k => skipIf (! s.key[k]) s
  | none => raise (.keyIndexOutOfRange (encode (.sknp x)) (s.reg x)) s

/-- Fx07: `V[x] <- DT` (R172). -/
def execLdVxDt (x : Reg) (s : State) : Answer := finish (s.setReg x s.dt)

/-- Fx0A: the highest pressed key to V[x]; with none pressed, `PC <- PC - 2`, so that the same instruction runs again at
the next step (R173, R176, R177). -/
def execLdVxKey (x : Reg) (s : State) : Answer :=
  match s.highestKey with
  | some k => finish (s.setReg x (BitVec.ofNat 8 k.val))
  | none => finish (s.setPc (s.pc - 2))

/-- Fx15: `DT <- vx` (R174). -/
def execLdDtVx (x : Reg) (s : State) : Answer := finish (s.setDelay (s.reg x))

/-- Fx18: `ST <- vx` (R175). -/
def execLdStVx (x : Reg) (s : State) : Answer := finish (s.setSound (s.reg x))

end Sys2Proof.Machine
end

