-- ==== Sys2Proof/Machine/Cycle.lean ====
section
/-! DEFINITION. The `step` command: one fetch-decode-execute cycle (40_step_cycle.md). -/

namespace Sys2Proof.Machine

/-- Where the next step fetches. -/
def State.fetchAddr (s : State) : Nat := s.pc.toNat

/-- Both bytes of a fetch at PC are in bounds: PC is at most 0xFFE (R58). -/
def State.fetchable (s : State) : Bool := s.fetchAddr + 1 < Config.memSize

/-- The word a step fetches (R55, R90). -/
def State.fetchWord (s : State) : Word := s.mem.readWord s.fetchAddr

/-- `PC <- a + 2`, before the instruction executes (R92). -/
def State.advancePc (s : State) : State := s.setPc (s.pc + 2)

/-- `step(logging)` (R90), its conditions in the order of R95. `logging` emits a trace outside the core and changes
nothing (R96). -/
def stepCycle (_logging : Bool) (s : State) : Answer :=
  if s.halted then raise .halted s
  else if s.fetchable then
    match decodeWord s.fetchWord with
    | .ok i => exec i s.advancePc
    | .error _ => raise (.unknownOpcode s.fetchWord) s.advancePc
  else raise (.pcOutOfBounds s.pc) s

end Sys2Proof.Machine
end

