-- ==== Sys2Proof/Machine/HostCommands.lean ====
section
/-! DEFINITION. The host's commands (R45) and which of them comes next. Each is atomic and lands between two
instructions (R60, R201). The host's own fields, `schedule` and `draws`, are no state of the core and no command but
`step` touches `draws`. -/

namespace Sys2Proof.Machine

/-- Construction, the core's power-on: FONTSET into 0x000-0x04F, all other memory zero, and every register at the "after
construction" value of R48 (R220). The result is the initial state. -/
def State.afterConstruct (fontset : Vector Byte 80) (s : State) : State :=
  { State.reset with
    mem := Memory.writeBytes [] 0 fontset.toList
    draws := s.draws
    schedule := s.schedule }

/-- `reset`: the "after `reset`" column of R48; the font bytes and KEY are kept (R221). -/
def State.afterReset (s : State) : State :=
  { s with
    v := Vector.replicate 16 0
    i := 0
    pc := Config.pcReset
    sp := 0
    stack := Vector.replicate 16 0
    dt := 0
    st := 0
    mem := s.mem.clearAboveFont
    fb := Framebuffer.clear
    halted := false
    result := .ok }

/-- `load_program(bytes)`: an image of at most 3584 bytes copied to 0x200 on, nothing else changed (R224); a longer one is
refused and changes nothing (R225). -/
def State.afterLoad (bytes : List Byte) (s : State) : State :=
  if bytes.length ≤ Config.progMax then
    (s.setMem (s.mem.writeBytes Config.progBase bytes)).setResult .ok
  else s.setResult (.programTooLarge bytes.length)

/-- A timer one lower, if it is nonzero (R205). -/
def countDown (b : Byte) : Byte := if b = 0 then 0 else b - 1

/-- `tick_timers` (R205). -/
def State.afterTick (s : State) : State :=
  ((s.setDelay (countDown s.dt)).setSound (countDown s.st)).setResult .ok

/-- `set_key(k, pressed)` (R46); an index of 16 or more is refused (R47). -/
def State.afterSetKey (k : Nat) (pressed : Bool) (s : State) : State :=
  if h : k < 16 then { s with key := s.key.set k pressed h, result := .ok }
  else s.setResult (.badArgument (.keyIndex k))

/-- `is_set(px, py)`: the cell's value as the result, no state changed (R44); off the screen it is refused (R47). -/
def State.afterIsSet (px py : Nat) (s : State) : State :=
  if h : px < 64 ∧ py < 32 then s.setResult (.pixel (s.fb.cell ⟨px, h.1⟩ ⟨py, h.2⟩))
  else s.setResult (.badArgument (.pixelAt px py))

/-- One command (R45). -/
def runCommand (c : Command) (s : State) : Answer :=
  match c with
  | .construct fontset => .next (s.afterConstruct fontset)
  | .loadProgram bytes => .next (s.afterLoad bytes)
  | .reset => .next s.afterReset
  | .step logging => stepCycle logging s
  | .tickTimers => .next s.afterTick
  | .setKey k pressed => .next (s.afterSetKey k pressed)
  | .isSet px py => .next (s.afterIsSet px py)

/-- The host's next command: the oldest of its schedule, or a `step` when the schedule is empty (log 2). -/
def runNextCommand (s : State) : Answer :=
  match s.schedule with
  | [] => stepCycle false s
  | c :: rest => runCommand c { s with schedule := rest }

/-- The state in which the next command is a step that fetches and runs the given word: the word's bytes at PC, nothing
scheduled before the step, the core not halted, and PC moved to 0x200 if no word can be fetched where it stands
(log 9). -/
def State.placeWord (op : Word) (s : State) : State :=
  let pc := if s.fetchable then s.pc else Config.pcReset
  { s with
    mem := s.mem.writeBytes pc.toNat [highByte op, lowByte op]
    pc := pc
    halted := false
    schedule := [] }

end Sys2Proof.Machine
end

