-- ==== Sys2Proof/Machine/Step.lean ====
section
/-! DEFINITION. One step of the model: the host's next command (R45). With nothing scheduled it is the `step` command, one
instruction (R90, R98). -/

namespace Sys2Proof.Machine

def step (s : State) : Host.Outcome State Fault Refusal := runNextCommand s

/-- The state whose next step runs exactly the table word `w` (log 9). -/
def State.withFetchWord (s : State) (nbits w : Nat) : State := s.placeWord (tableWord nbits w)

end Sys2Proof.Machine
end

