-- ==== Sys2Proof/Safety.lean ====
section
/-! DEFINITION. The terms claims are stated in: the named pieces of architectural state and what leaves them unchanged
(R12), the machine's invariant, and safe runs. -/

namespace Sys2Proof.Machine

/-- A named piece of the architectural state (R48, R49). -/
inductive Component where
  | reg (r : Reg)
  | index
  | pc
  | sp
  | slot (j : Fin 16)
  | delay
  | sound
  | byte (a : Nat)
  | pixel (px : Col) (py : Row)
  | key (k : Key)
  | halted
  deriving DecidableEq, Repr

/-- The value of a piece of state, as a number. A byte of memory is read through `Memory.read`. -/
def State.view (s : State) : Component → Nat
  | .reg r => (s.reg r).toNat
  | .index => s.i.toNat
  | .pc => s.pc.toNat
  | .sp => s.sp.val
  | .slot j => s.stack[j].toNat
  | .delay => s.dt.toNat
  | .sound => s.st.toNat
  | .byte a => (s.mem.read a).toNat
  | .pixel px py => (s.fb.cell px py).toNat
  | .key k => s.key[k].toNat
  | .halted => s.halted.toNat

/-- From `s` to `t` nothing changes but the pieces of state in `W` (R12), the model's own fields `draws` and `schedule`
among what is unchanged. -/
structure ChangesOnly (W : Component → Prop) (s t : State) : Prop where
  view_eq : ∀ c, ¬ W c → t.view c = s.view c
  draws_eq : t.draws = s.draws
  schedule_eq : t.schedule = s.schedule

/-- Every piece of state but those the list names is unchanged. -/
abbrev ChangesOnlyList (W : List Component) (s t : State) : Prop := ChangesOnly (fun c => c ∈ W) s t

/-- What every command keeps true, and construction makes true: memory is in its canonical form, PC is at most 0x10FE
(R27), and every return address in use is at most 0x1000 (R27, R101). -/
structure State.Inv (s : State) : Prop where
  mem_wf : s.mem.wf = true
  pc_le : s.pc.toNat ≤ 0x10FE
  stack_le : ∀ j : Fin 16, j.val < s.sp.val → s.stack[j].toNat ≤ 0x1000

/-- Sprite `Dxyn` at I covers cell (px, py): some row r < n and column c < 8 has its bit set, bit 7 leftmost, and lands
there after the wrap modulo 64 and 32 (R161, R162). -/
def State.SpriteCovers (s : State) (x y : Reg) (n : Nat) (px : Col) (py : Row) : Prop :=
  ∃ r c, r < n ∧ c < 8 ∧ (s.mem.read (s.i.toNat + r)).getLsbD (7 - c) = true ∧
    ((s.reg x).toNat + c) % 64 = px.val ∧ ((s.reg y).toNat + r) % 32 = py.val

/-- The word at PC, big-endian (R55). -/
def State.wordAtPc (s : State) : Word :=
  BitVec.ofNat 16 ((s.mem.read s.pc.toNat).toNat * 256 + (s.mem.read (s.pc.toNat + 1)).toNat)

/-- The next command is a step of a core that is not halted and whose fetch is in bounds (R90). -/
structure State.ReadyToFetch (s : State) : Prop where
  no_schedule : s.schedule = []
  not_halted : s.halted = false
  pc_le : s.pc.toNat ≤ 0xFFE

/-- The next command is a step, logging or not, and `rest` the commands after it: a step is scheduled first, or nothing is
and the host issues one (log 2). -/
def State.NextIsStep (s : State) (rest : List Command) : Prop :=
  (s.schedule = [] ∧ rest = []) ∨ ∃ logging, s.schedule = .step logging :: rest

/-- A command that succeeded: its result is `Ok`, or the bool of `is_set` (R191). -/
def State.succeeded (s : State) : Prop := s.result.code = 0

/-- Commands that do not clear `halted`: all but construction and `reset` (R42, R198). -/
def Command.keepsHalt : Command → Bool
  | .construct _ => false
  | .reset => false
  | .loadProgram _ => true
  | .step _ => true
  | .tickTimers => true
  | .setKey _ _ => true
  | .isSet _ _ => true

/-- A halted core for which no construction and no `reset` is scheduled (R209). -/
structure State.HaltedForGood (s : State) : Prop where
  halted : s.halted = true
  keepsHalt : ∀ c ∈ s.schedule, c.keepsHalt = true

/-- `n` commands, one after the other, stopping at a fault or a refusal: `Host.Core.run` of this machine. -/
def run : Nat → State → Answer
  | 0, s => .next s
  | n + 1, s =>
    match step s with
    | .next t => run n t
    | .fault r => .fault r
    | .refused r => .refused r

/-- A run of `n` commands is safe if every command in it succeeded. -/
def SafeRun : Nat → State → Prop
  | 0, _ => True
  | n + 1, s => ∃ t, step s = .next t ∧ t.succeeded ∧ SafeRun n t

end Sys2Proof.Machine
end

