-- ==== Sys2Proof/Certificates/Slice0/Obligations.lean ====
section
/-! DEFINITION. The statements for the provers. A frame is said by `ChangesOnly` (Sys2Proof/Safety.lean): every named piece
of state outside the given ones keeps its value, memory byte by byte. Where a rule does not itself say that nothing else
changes, that clause rests on R12, which the spec marks as its decision D20. -/

open Sys2Proof Sys2Proof.Machine

/-! ## Encoding -/

/-- Words written out from the patterns of R77 decode to the instructions they stand for, and words the table's fixed
bits rule out are rejected with the raw word (R76, R78). -/
def Obligations.SampleWordsDecode : Prop :=
  decodeWord 0x00E0 = .ok .cls ∧ decodeWord 0x00EE = .ok .ret ∧
  decodeWord 0x1234 = .ok (.jp 0x234) ∧ decodeWord 0x8AB4 = .ok (.addReg 10 11) ∧
  decodeWord 0xDAB5 = .ok (.drw 10 11 5) ∧ decodeWord 0xE19E = .ok (.skp 1) ∧
  decodeWord 0xFF65 = .ok (.loadRegs 15) ∧ decodeWord 0xC30F = .ok (.rnd 3 0x0F) ∧
  decodeWord 0xA2F0 = .ok (.ldI 0x2F0) ∧
  decodeWord 0x0120 = .error (.unknownOpcode 0x0120) ∧ decodeWord 0x5121 = .error (.unknownOpcode 0x5121) ∧
  decodeWord 0xE10E = .error (.unknownOpcode 0xE10E)

/-- R70, R76, R77: the two bytes of every well-formed instruction, whatever follows them, decode to that instruction with
every operand as it was, and leave the bytes after them. -/
def Obligations.EncodedInstructionDecodesBack : Prop :=
  ∀ (i : Instr) (rest : List Byte), i.wellFormed = true → decode (encodeBytes i ++ rest) = .ok (i, rest)

/-- R76, R81: a word that decodes is the encoding of the instruction it decodes to, which is well formed; so no two words
decode to one instruction and no bit of a word is ignored. -/
def Obligations.DecodedWordEncodesBack : Prop :=
  ∀ (w : Word) (i : Instr), decodeWord w = .ok i → i.wellFormed = true ∧ encode i = w

/-- R81: every word matches at most one row of the opcode table. -/
def Obligations.AtMostOneRowAccepts : Prop :=
  ∀ (w : Word) (j k : Nat) (hj : j < opcodeRows.length) (hk : k < opcodeRows.length),
    opcodeRows[j].accepts w = true → opcodeRows[k].accepts w = true → j = k

/-- R79: the invalid words are exactly those of its table, each decodes to UnknownOpcode with the whole word, and every
other word decodes to an instruction. -/
def Obligations.InvalidWordsAreExactlyThoseListed : Prop :=
  ∀ w : Word,
    let n := w.toNat
    let invalid : Prop :=
      (n / 4096 = 0x0 ∧ n ≠ 0x00E0 ∧ n ≠ 0x00EE) ∨
      (n / 4096 = 0x5 ∧ n % 16 ≠ 0) ∨
      (n / 4096 = 0x8 ∧ n % 16 ∈ [0x8, 0x9, 0xA, 0xB, 0xC, 0xD, 0xF]) ∨
      (n / 4096 = 0x9 ∧ n % 16 ≠ 0) ∨
      (n / 4096 = 0xE ∧ n % 256 ∉ [0x9E, 0xA1]) ∨
      (n / 4096 = 0xF ∧ n % 256 ∉ [0x07, 0x0A, 0x15, 0x18, 0x1E, 0x29, 0x33, 0x55, 0x65])
    (invalid → decodeWord w = .error (.unknownOpcode w)) ∧ (¬ invalid → ∃ i, decodeWord w = .ok i)

/-! ## The step cycle and its errors -/

/-- R90, R92: when the big-endian word at PC decodes to i, a step, logging or not, is exec of i with PC already
a + 2. -/
def Obligations.StepRunsTheDecodedInstruction : Prop :=
  ∀ (s : State) (i : Instr) (logging : Bool) (rest : List Command),
    s.halted = false → s.pc.toNat ≤ 0xFFE → decodeWord s.wordAtPc = .ok i →
    (s.schedule = [] → step s = exec i { s with pc := s.pc + 2 }) ∧
    (s.schedule = .step logging :: rest → step s = exec i { s with pc := s.pc + 2, schedule := rest })

/-- R91, R96 (the spec's decision D9): while halted, a step, logging or not, returns Halted and changes nothing, wherever PC
points. -/
def Obligations.HaltedStepChangesNothing : Prop :=
  ∀ (s : State) (rest : List Command), s.NextIsStep rest → s.halted = true →
    ∃ t, step s = .next t ∧ t.result = .halted ∧ ChangesOnlyList [] { s with schedule := rest } t

/-- R58, R96, R194, R195 (the spec's decision D6): a fetch at 0xFFF or above, logging or not, returns PcOutOfBounds with the
PC and changes nothing. -/
def Obligations.FetchBeyondMemoryIsReported : Prop :=
  ∀ (s : State) (rest : List Command), s.NextIsStep rest → s.halted = false → 0xFFF ≤ s.pc.toNat →
    ∃ t, step s = .next t ∧ t.result = .pcOutOfBounds s.pc ∧ ChangesOnlyList [] { s with schedule := rest } t

/-- R96, R192, R195 (the spec's decision D5): a fetched word that matches no row, logging or not, returns UnknownOpcode with
the whole word; PC keeps the increment and nothing else changes. -/
def Obligations.UnknownOpcodeKeepsTheIncrement : Prop :=
  ∀ (s : State) (rest : List Command), s.NextIsStep rest → s.halted = false → s.pc.toNat ≤ 0xFFE →
    (∀ r ∈ opcodeRows, s.wordAtPc &&& r.mask ≠ r.pattern) →
    ∃ t, step s = .next t ∧ t.result = .unknownOpcode s.wordAtPc ∧ t.pc.toNat = s.pc.toNat + 2 ∧
      ChangesOnlyList [.pc] { s with schedule := rest } t

/-- The model's reading (log 1, DEDUCED) of R97, "The core stays callable after every result", and R190, "Every error is the
result of the command that met it": every command answers a next state, and nothing stops the machine. -/
def Obligations.EveryStepAnswersANextState : Prop := ∀ s : State, ∃ t, step s = .next t

/-- R94, R195, R202 (decisions D5, D9): an instruction that does not return Ok has changed nothing of its own: the state is
the one it started from, with the error as the result, and `halted` set if the error is of the abort class. -/
def Obligations.InstructionErrorsArePrecise : Prop :=
  ∀ (i : Instr) (s t : State), exec i s = .next t → t.result ≠ .ok →
    t = { s with result := t.result, halted := s.halted || t.result.aborts }

/-- R42, R198, R209 (decision D9): a halted core with no construction and no reset among the host's commands is still one
after every step, so it is halted after any run. Over such a run registers, I, PC, the stack and the framebuffer stay as
they were; memory does if no `load_program` is scheduled, the timers if no `tick_timers` is, the keys if no `set_key` is
("`tick_timers`, `set_key`, `is_set` and `load_program` still act"). -/
def Obligations.HaltLastsUntilReset : Prop :=
  (∀ s t : State, s.HaltedForGood → step s = .next t → t.HaltedForGood) ∧
  (∀ (n : Nat) (s t : State), s.HaltedForGood → Machine.run n s = .next t →
    t.HaltedForGood ∧ t.v = s.v ∧ t.i = s.i ∧ t.pc = s.pc ∧ t.sp = s.sp ∧ t.stack = s.stack ∧ t.fb = s.fb ∧
    t.draws = s.draws ∧
    ((∀ bytes, Command.loadProgram bytes ∉ s.schedule) → t.mem = s.mem) ∧
    (Command.tickTimers ∉ s.schedule → t.dt = s.dt ∧ t.st = s.st) ∧
    ((∀ k p, Command.setKey k p ∉ s.schedule) → t.key = s.key))

/-! ## Invariants -/

/-- Every command, whatever it is, keeps the invariant: memory canonical, PC at most 0x10FE (R27), return addresses in use
at most 0x1000 (R27). -/
def Obligations.EveryStepKeepsTheInvariant : Prop := ∀ s t : State, s.Inv → step s = .next t → t.Inv

/-- The invariant holds at reset. -/
def Obligations.InvariantHoldsAtReset : Prop := State.reset.Inv

/-! ## Memory -/

/-- R60, R61: a read returns the most recent write to that byte, and a write leaves every other byte alone; the canonical
form is kept. -/
def Obligations.ReadReturnsTheLastWrite : Prop :=
  ∀ (m : Memory) (a b : Nat) (v : Byte), m.wf = true → a < 0x1000 →
    (m.write a v).wf = true ∧ (m.write a v).read b = if b = a then v else m.read b

/-- Two canonical memories that read the same at every address of the address space (R50) are the same data (the model's
own form of memory, log 6). -/
def Obligations.EqualReadsMeanEqualMemories : Prop :=
  ∀ m m' : Memory, m.wf = true → m'.wf = true → (∀ a, a < 0x1000 → m.read a = m'.read a) → m = m'

/-- R56, R65 (decision D22): registers stored by Fx55 are what the next fetch reads: the word at I + k is V[k] * 256 +
V[k+1]. -/
def Obligations.StoredRegistersAreFetched : Prop :=
  ∀ (s t : State) (x : Reg) (k : Nat) (hk : k + 1 ≤ x.val),
    s.mem.wf = true → exec (.storeRegs x) s = .next t → t.result = .ok →
    (t.setPc (s.i + BitVec.ofNat 16 k)).wordAtPc.toNat =
      (s.v[k]'(by omega)).toNat * 256 + (s.v[k + 1]'(by omega)).toNat

/-! ## Control transfer -/

/-- R102: JP writes nnn to PC, whatever PC was, and changes nothing else; a self-jump is a fixed point of step; a jump to
0xFFF is accepted and the next fetch returns PcOutOfBounds. -/
def Obligations.JumpWritesPc : Prop :=
  (∀ nnn : Addr, encode (.jp nnn) = BitVec.ofNat 16 (0x1000 + nnn.toNat)) ∧
  (∀ (s : State) (nnn : Addr), ∃ t, exec (.jp nnn) s = .next t ∧ t.result = .ok ∧
    t.pc.toNat = nnn.toNat ∧ ChangesOnlyList [.pc] s t) ∧
  (∀ s : State, s.ReadyToFetch → s.wordAtPc.toNat = 0x1000 + s.pc.toNat →
    ∃ t, step s = .next t ∧ t.result = .ok ∧ ChangesOnlyList [] s t) ∧
  (∀ s t : State, s.schedule = [] → s.halted = false → exec (.jp 0xFFF) s = .next t →
    ∃ u, step t = .next u ∧ u.result = .pcOutOfBounds 0xFFF ∧ ChangesOnlyList [] t u)

/-- R108 (the spec's decision D29: not masked): Bnnn writes the exact sum V0 + nnn to PC and changes nothing else. -/
def Obligations.OffsetJumpAddsV0 : Prop :=
  ∀ (s : State) (nnn : Addr), ∃ t, exec (.jpV0 nnn) s = .next t ∧ t.result = .ok ∧
    t.pc.toNat = (s.reg 0).toNat + nnn.toNat ∧ ChangesOnlyList [.pc] s t

/-- R30, R103, R193, R195: CALL pushes the incremented PC and jumps; with 16 slots in use it returns StackOverflow with its
word and changes nothing (the check before any write is the spec's decision D5). -/
def Obligations.CallPushesTheReturnAddress : Prop :=
  ∀ (s : State) (nnn : Addr),
    (∀ j : Fin 16, j.val = s.sp.val → ∃ t, exec (.call nnn) s = .next t ∧ t.result = .ok ∧
      t.pc.toNat = nnn.toNat ∧ t.sp.val = s.sp.val + 1 ∧ t.stack[j] = s.pc ∧
      ChangesOnlyList [.pc, .sp, .slot j] s t) ∧
    (s.sp.val = 16 → ∃ t, exec (.call nnn) s = .next t ∧
      t.result = .stackOverflow (BitVec.ofNat 16 (0x2000 + nnn.toNat)) ∧ ChangesOnlyList [] s t)

/-- R30, R101, R193, R195: RET pops the top slot into PC, unmasked; with an empty stack it returns StackUnderflow(0x00EE) and
changes nothing (decision D5). That the popped slot keeps its value is the model's choice (log 8; R31: "A model may keep
them or not"). -/
def Obligations.ReturnPopsTheTopSlot : Prop :=
  ∀ s : State,
    (∀ j : Fin 16, j.val + 1 = s.sp.val → ∃ t, exec .ret s = .next t ∧ t.result = .ok ∧
      t.pc = s.stack[j] ∧ t.sp.val = j.val ∧ ChangesOnlyList [.pc, .sp] s t) ∧
    (s.sp.val = 0 → ∃ t, exec .ret s = .next t ∧ t.result = .stackUnderflow 0x00EE ∧ ChangesOnlyList [] s t)

/-- R110, W7: a CALL and then a RET restore PC to the word after the CALL and the depth of the stack. -/
def Obligations.ReturnUndoesCall : Prop :=
  ∀ (s : State) (nnn : Addr), s.sp.val < 16 →
    ∃ t u, exec (.call nnn) s = .next t ∧ exec .ret t = .next u ∧ u.result = .ok ∧ u.pc = s.pc ∧ u.sp = s.sp ∧
      ∀ j : Fin 16, j.val < s.sp.val → u.stack[j] = s.stack[j]

/-- R104, R105: the skips on an immediate add 2 to PC when Vx equals (3xnn) or differs from (4xnn) the byte, and leave it
otherwise; no flag is written and no error raised. -/
def Obligations.ImmediateSkips : Prop :=
  ∀ (s : State) (x : Reg) (nn : Byte),
    (encode (.seByte x nn) = BitVec.ofNat 16 (0x3000 + x.val * 256 + nn.toNat) ∧
      ∃ t, exec (.seByte x nn) s = .next t ∧ t.result = .ok ∧ t.reg Reg.vf = s.reg Reg.vf ∧
        ((s.reg x).toNat = nn.toNat → t.pc = s.pc + 2) ∧ ((s.reg x).toNat ≠ nn.toNat → t.pc = s.pc)) ∧
    (encode (.sneByte x nn) = BitVec.ofNat 16 (0x4000 + x.val * 256 + nn.toNat) ∧
      ∃ t, exec (.sneByte x nn) s = .next t ∧ t.result = .ok ∧ t.reg Reg.vf = s.reg Reg.vf ∧
        ((s.reg x).toNat ≠ nn.toNat → t.pc = s.pc + 2) ∧ ((s.reg x).toNat = nn.toNat → t.pc = s.pc))

/-- R106, R107: the skips on two registers add 2 to PC when Vx equals (5xy0) or differs from (9xy0) Vy, and change nothing
else; words of their groups with another low nibble are UnknownOpcode (the spec's decision D2). -/
def Obligations.RegisterSkips : Prop :=
  (∀ (s : State) (x y : Reg),
    (encode (.seReg x y) = BitVec.ofNat 16 (0x5000 + x.val * 256 + y.val * 16) ∧
      ∃ t, exec (.seReg x y) s = .next t ∧ t.result = .ok ∧ ChangesOnlyList [.pc] s t ∧
        ((s.reg x).toNat = (s.reg y).toNat → t.pc = s.pc + 2) ∧
        ((s.reg x).toNat ≠ (s.reg y).toNat → t.pc = s.pc)) ∧
    (encode (.sneReg x y) = BitVec.ofNat 16 (0x9000 + x.val * 256 + y.val * 16) ∧
      ∃ t, exec (.sneReg x y) s = .next t ∧ t.result = .ok ∧ ChangesOnlyList [.pc] s t ∧
        ((s.reg x).toNat ≠ (s.reg y).toNat → t.pc = s.pc + 2) ∧
        ((s.reg x).toNat = (s.reg y).toNat → t.pc = s.pc))) ∧
  (∀ w : Word, (w.toNat / 4096 = 5 ∨ w.toNat / 4096 = 9) → w.toNat % 16 ≠ 0 →
    decodeWord w = .error (.unknownOpcode w))

/-! ## Arithmetic, logic, shifts, random -/

/-- R121, R122, R123: the loads and the immediate addition write Vx; VF is not written, even when the sum exceeds 255,
unless x is F; a copy of a register to itself changes nothing; no error is raised. -/
def Obligations.LoadsAndImmediateAdd : Prop :=
  ∀ (s : State) (x y : Reg) (nn : Byte),
    (encode (.ldByte x nn) = BitVec.ofNat 16 (0x6000 + x.val * 256 + nn.toNat) ∧
      ∃ t, exec (.ldByte x nn) s = .next t ∧ t.result = .ok ∧ (t.reg x).toNat = nn.toNat ∧
        (x ≠ Reg.vf → t.reg Reg.vf = s.reg Reg.vf)) ∧
    (encode (.addByte x nn) = BitVec.ofNat 16 (0x7000 + x.val * 256 + nn.toNat) ∧
      ∃ t, exec (.addByte x nn) s = .next t ∧ t.result = .ok ∧
        (t.reg x).toNat = ((s.reg x).toNat + nn.toNat) % 256 ∧
        (x ≠ Reg.vf → t.reg Reg.vf = s.reg Reg.vf)) ∧
    (encode (.ldReg x y) = BitVec.ofNat 16 (0x8000 + x.val * 256 + y.val * 16) ∧
      ∃ t, exec (.ldReg x y) s = .next t ∧ t.result = .ok ∧ (t.reg x).toNat = (s.reg y).toNat ∧
        (x ≠ Reg.vf → t.reg Reg.vf = s.reg Reg.vf) ∧ (x = y → ChangesOnlyList [] s t))

/-- R124, R125, R126: OR, AND and XOR act bit by bit, on Vx alone; VF is neither cleared nor written unless x is F (the
spec's decision D20). -/
def Obligations.LogicActsBitByBit : Prop :=
  ∀ (s : State) (x y : Reg),
    (∃ t, exec (.orReg x y) s = .next t ∧ t.result = .ok ∧ ChangesOnlyList [.reg x] s t ∧
      ∀ k, (t.reg x).getLsbD k = ((s.reg x).getLsbD k || (s.reg y).getLsbD k)) ∧
    (∃ t, exec (.andReg x y) s = .next t ∧ t.result = .ok ∧ ChangesOnlyList [.reg x] s t ∧
      ∀ k, (t.reg x).getLsbD k = ((s.reg x).getLsbD k && (s.reg y).getLsbD k)) ∧
    (∃ t, exec (.xorReg x y) s = .next t ∧ t.result = .ok ∧ ChangesOnlyList [.reg x] s t ∧
      ∀ k, (t.reg x).getLsbD k = ((s.reg x).getLsbD k ^^ (s.reg y).getLsbD k))

/-- R127, R135: 8xy4 writes the sum mod 256 to Vx and the carry to VF, from the operands as they were; when x is F the
result stays and the flag is lost (the spec's decision D4). -/
def Obligations.AdditionCarriesIntoVF : Prop :=
  ∀ (s : State) (x y : Reg), ∃ t, exec (.addReg x y) s = .next t ∧ t.result = .ok ∧
    (t.reg x).toNat = ((s.reg x).toNat + (s.reg y).toNat) % 256 ∧
    (x ≠ Reg.vf → (t.reg Reg.vf).toNat = ((s.reg x).toNat + (s.reg y).toNat) / 256) ∧
    ChangesOnlyList [.reg x, .reg Reg.vf] s t

/-- R128, R130, R135: 8xy5 and 8xy7 write the difference mod 256 to Vx and the strict comparison to VF, 0 for equal
operands; when x is F the result stays (the spec's decision D4). -/
def Obligations.SubtractionsCompareStrictly : Prop :=
  ∀ (s : State) (x y : Reg),
    (∃ t, exec (.subReg x y) s = .next t ∧ t.result = .ok ∧
      (t.reg x).toNat = ((s.reg x).toNat + 256 - (s.reg y).toNat) % 256 ∧
      (x ≠ Reg.vf → (s.reg y).toNat < (s.reg x).toNat → (t.reg Reg.vf).toNat = 1) ∧
      (x ≠ Reg.vf → (s.reg x).toNat ≤ (s.reg y).toNat → (t.reg Reg.vf).toNat = 0) ∧
      ChangesOnlyList [.reg x, .reg Reg.vf] s t) ∧
    (∃ t, exec (.subnReg x y) s = .next t ∧ t.result = .ok ∧
      (t.reg x).toNat = ((s.reg y).toNat + 256 - (s.reg x).toNat) % 256 ∧
      (x ≠ Reg.vf → (s.reg x).toNat < (s.reg y).toNat → (t.reg Reg.vf).toNat = 1) ∧
      (x ≠ Reg.vf → (s.reg y).toNat ≤ (s.reg x).toNat → (t.reg Reg.vf).toNat = 0) ∧
      ChangesOnlyList [.reg x, .reg Reg.vf] s t)

/-- R129, R131, R135: the shifts move Vx by one bit, put the bit shifted out in VF, and neither read nor write Vy (so the
result is the same for every y); when x is F the result stays (the spec's decision D4). -/
def Obligations.ShiftsMoveOneBit : Prop :=
  ∀ (s : State) (x y : Reg),
    (∃ t, exec (.shr x y) s = .next t ∧ t.result = .ok ∧
      (t.reg x).toNat = (s.reg x).toNat / 2 ∧
      (x ≠ Reg.vf → (t.reg Reg.vf).toNat = (s.reg x).toNat % 2) ∧
      ChangesOnlyList [.reg x, .reg Reg.vf] s t) ∧
    (∃ t, exec (.shl x y) s = .next t ∧ t.result = .ok ∧
      (t.reg x).toNat = (s.reg x).toNat * 2 % 256 ∧
      (x ≠ Reg.vf → (t.reg Reg.vf).toNat = (s.reg x).toNat / 128) ∧
      ChangesOnlyList [.reg x, .reg Reg.vf] s t)

/-- R132, R134: Cxnn writes the draw under the mask, whatever the draw (a free value, log 3), so a bit of Vx where nn is 0
is 0; it consumes one draw and changes nothing else. -/
def Obligations.RandomByteIsMasked : Prop :=
  ∀ (s : State) (x : Reg) (nn : Byte), ∃ t, exec (.rnd x nn) s = .next t ∧ t.result = .ok ∧
    (∀ k, (t.reg x).getLsbD k = ((Config.rand8 s.draws).getLsbD k && nn.getLsbD k)) ∧
    (t.reg x).toNat ≤ nn.toNat ∧ t.draws = s.draws + 1 ∧
    ChangesOnlyList [.reg x] s { t with draws := s.draws }

/-- R134: every instruction but Cxnn ignores the draws: with another count of draws it does the same. -/
def Obligations.OtherInstructionsIgnoreTheDraws : Prop :=
  ∀ (i : Instr) (s t : State) (d : Nat), (∀ x nn, i ≠ .rnd x nn) → exec i s = .next t →
    t.draws = s.draws ∧ exec i { s with draws := d } = .next { t with draws := d }

/-! ## Index register and memory instructions -/

/-- R140, R141: Annn sets I to nnn; Fx1E adds Vx to I mod 65536; neither writes VF or raises an error. -/
def Obligations.IndexLoadAndAdd : Prop :=
  ∀ (s : State) (x : Reg) (nnn : Addr),
    (encode (.ldI nnn) = BitVec.ofNat 16 (0xA000 + nnn.toNat) ∧
      ∃ t, exec (.ldI nnn) s = .next t ∧ t.result = .ok ∧ t.i.toNat = nnn.toNat ∧
        t.reg Reg.vf = s.reg Reg.vf) ∧
    (encode (.addI x) = BitVec.ofNat 16 (0xF01E + x.val * 256) ∧
      ∃ t, exec (.addI x) s = .next t ∧ t.result = .ok ∧
        t.i.toNat = (s.i.toNat + (s.reg x).toNat) % 65536 ∧ t.reg Reg.vf = s.reg Reg.vf)

/-- R142 (the spec's decision D31: vx not masked): Fx29 sets I to the exact product vx * 5 and changes nothing else. -/
def Obligations.FontAddressIsFiveTimesVx : Prop :=
  ∀ (s : State) (x : Reg), ∃ t, exec (.ldFont x) s = .next t ∧ t.result = .ok ∧
    t.i.toNat = (s.reg x).toNat * 5 ∧ ChangesOnlyList [.index] s t

/-- R143: with I + 2 in bounds, Fx33 stores the hundreds, tens and ones of Vx at I, I + 1 and I + 2 and changes nothing
else, I included. -/
def Obligations.BcdStoresThreeDigits : Prop :=
  ∀ (s : State) (x : Reg), s.mem.wf = true → s.i.toNat + 2 ≤ 0xFFF →
    ∃ t, exec (.ldBcd x) s = .next t ∧ t.result = .ok ∧
      (t.mem.read s.i.toNat).toNat < 10 ∧ (t.mem.read (s.i.toNat + 1)).toNat < 10 ∧
      (t.mem.read (s.i.toNat + 2)).toNat < 10 ∧
      (t.mem.read s.i.toNat).toNat * 100 + (t.mem.read (s.i.toNat + 1)).toNat * 10 +
        (t.mem.read (s.i.toNat + 2)).toNat = (s.reg x).toNat ∧
      ChangesOnlyList [.byte s.i.toNat, .byte (s.i.toNat + 1), .byte (s.i.toNat + 2)] s t

/-- R144, R147: with the block in bounds, Fx55 stores V0..Vx at I..I + x and changes nothing else, I included. -/
def Obligations.RegistersAreStoredInOrder : Prop :=
  ∀ (s : State) (x : Reg), s.mem.wf = true → s.i.toNat + x.val ≤ 0xFFF →
    ∃ t, exec (.storeRegs x) s = .next t ∧ t.result = .ok ∧
      (∀ r : Reg, r ≤ x → t.mem.read (s.i.toNat + r.val) = s.reg r) ∧
      ChangesOnly (fun c => ∃ r : Reg, r ≤ x ∧ c = .byte (s.i.toNat + r.val)) s t

/-- R145, R147: with the block in bounds, Fx65 loads V0..Vx from I..I + x and changes nothing else, the registers above x
and I included. -/
def Obligations.RegistersAreLoadedInOrder : Prop :=
  ∀ (s : State) (x : Reg), s.i.toNat + x.val ≤ 0xFFF →
    ∃ t, exec (.loadRegs x) s = .next t ∧ t.result = .ok ∧
      (∀ r : Reg, r ≤ x → t.reg r = s.mem.read (s.i.toNat + r.val)) ∧
      ChangesOnly (fun c => ∃ r : Reg, r ≤ x ∧ c = .reg r) s t

/-- R57, R196, R198 (the spec's decisions D7, D9): a block access through I that reaches 0x1000 or above returns
MemoryOutOfBounds with the instruction's word and the lowest such address, sets halted, and changes nothing else: no
byte, register or pixel of the part in bounds. -/
def Obligations.BlockOutOfBoundsAborts : Prop :=
  ∀ (s : State) (x y : Reg) (n : Nat) (raw : Nat) (i : Instr),
    ((i = .ldBcd x ∧ raw = 0xF033 + x.val * 256 ∧ 0xFFF < s.i.toNat + 2) ∨
     (i = .storeRegs x ∧ raw = 0xF055 + x.val * 256 ∧ 0xFFF < s.i.toNat + x.val) ∨
     (i = .loadRegs x ∧ raw = 0xF065 + x.val * 256 ∧ 0xFFF < s.i.toNat + x.val) ∨
     (i = .drw x y n ∧ raw = 0xD000 + x.val * 256 + y.val * 16 + n ∧ 0 < n ∧ n < 16 ∧
       0xFFF < s.i.toNat + n - 1)) →
    ∃ t, exec i s = .next t ∧
      t.result = .memoryOutOfBounds (BitVec.ofNat 16 raw) (BitVec.ofNat 17 (max s.i.toNat 0x1000)) ∧
      t.halted = true ∧ ChangesOnlyList [.halted] s t

/-! ## Display -/

/-- R160: 00E0 sets every cell to 0 and changes nothing else: no register, VF included, no memory, no timer. -/
def Obligations.ClearZeroesEveryCell : Prop :=
  encode .cls = 0x00E0 ∧
  ∀ s : State, ∃ t, exec .cls s = .next t ∧ t.result = .ok ∧ (∀ px py, t.fb.cell px py = false) ∧
    ChangesOnly (fun c => ∃ px py, c = .pixel px py) s t

/-- R161 to R164: with its bytes in bounds (or n = 0, whatever I is), Dxyn inverts exactly the cells its set bits cover
after the wrap, sets VF to 1 if one of them was 1 and to 0 otherwise, and changes nothing else, I included. The per-pixel
wrap is the spec's decision D13. -/
def Obligations.DrawXorsExactlyTheSprite : Prop :=
  ∀ (s : State) (x y : Reg) (n : Nat), n < 16 → (n = 0 ∨ s.i.toNat + n - 1 ≤ 0xFFF) →
    ∃ t, exec (.drw x y n) s = .next t ∧ t.result = .ok ∧
      (∀ px py, (s.SpriteCovers x y n px py → t.fb.cell px py = ! s.fb.cell px py) ∧
        (¬ s.SpriteCovers x y n px py → t.fb.cell px py = s.fb.cell px py)) ∧
      ((∃ px py, s.SpriteCovers x y n px py ∧ s.fb.cell px py = true) → (t.reg Reg.vf).toNat = 1) ∧
      ((∀ px py, s.SpriteCovers x y n px py → s.fb.cell px py = false) → (t.reg Reg.vf).toNat = 0) ∧
      ChangesOnly (fun c => c = .reg Reg.vf ∨ ∃ px py, c = .pixel px py) s t

/-- R161, R165, W8: drawing the same sprite twice at the same place, VF being no coordinate, restores the framebuffer, and
the second draw's VF is 1 if the sprite covers a cell that was 0 before the first, else 0. -/
def Obligations.DrawingTwiceRestoresTheScreen : Prop :=
  ∀ (s : State) (x y : Reg) (n : Nat), n < 16 → (n = 0 ∨ s.i.toNat + n - 1 ≤ 0xFFF) →
    x ≠ Reg.vf → y ≠ Reg.vf →
    ∃ t u, exec (.drw x y n) s = .next t ∧ exec (.drw x y n) t = .next u ∧ u.fb = s.fb ∧
      ((∃ px py, s.SpriteCovers x y n px py ∧ s.fb.cell px py = false) → (u.reg Reg.vf).toNat = 1) ∧
      ((∀ px py, s.SpriteCovers x y n px py → s.fb.cell px py = true) → (u.reg Reg.vf).toNat = 0)

/-! ## Keys and timers -/

/-- R170, R171: with Vx at most 15, Ex9E skips if key Vx is pressed and ExA1 if it is not; neither changes anything
else. -/
def Obligations.KeySkips : Prop :=
  ∀ (s : State) (x : Reg) (k : Key), (s.reg x).toNat = k.val →
    (∃ t, exec (.skp x) s = .next t ∧ t.result = .ok ∧ ChangesOnlyList [.pc] s t ∧
      (s.key[k] = true → t.pc = s.pc + 2) ∧ (s.key[k] = false → t.pc = s.pc)) ∧
    (∃ t, exec (.sknp x) s = .next t ∧ t.result = .ok ∧ ChangesOnlyList [.pc] s t ∧
      (s.key[k] = false → t.pc = s.pc + 2) ∧ (s.key[k] = true → t.pc = s.pc))

/-- R178, R197, R198 (the spec's decisions D8, D9): with Vx of 16 or more, Ex9E and ExA1 return KeyIndexOutOfRange with the
word and the value, set halted, and change nothing else. -/
def Obligations.KeyIndexOutOfRangeAborts : Prop :=
  ∀ (s : State) (x : Reg), 16 ≤ (s.reg x).toNat →
    (∃ t, exec (.skp x) s = .next t ∧
      t.result = .keyIndexOutOfRange (BitVec.ofNat 16 (0xE09E + x.val * 256)) (s.reg x) ∧
      t.halted = true ∧ ChangesOnlyList [.halted] s t) ∧
    (∃ t, exec (.sknp x) s = .next t ∧
      t.result = .keyIndexOutOfRange (BitVec.ofNat 16 (0xE0A1 + x.val * 256)) (s.reg x) ∧
      t.halted = true ∧ ChangesOnlyList [.halted] s t)

/-- R173, R176, R177 (the spec's decisions D11, D12): with a key pressed, Fx0A writes the highest pressed index to Vx at
once and changes nothing else. -/
def Obligations.KeyWaitTakesTheHighestKey : Prop :=
  ∀ (s : State) (x : Reg) (k : Key), s.key[k] = true → (∀ j : Key, k < j → s.key[j] = false) →
    ∃ t, exec (.ldVxKey x) s = .next t ∧ t.result = .ok ∧ (t.reg x).toNat = k.val ∧ ChangesOnlyList [.reg x] s t

/-- R99, R173, R232: with no key pressed, a step at an Fx0A returns Ok and changes nothing: a fixed point of step. -/
def Obligations.KeyWaitIsAFixedPoint : Prop :=
  ∀ (s : State) (x : Reg), s.ReadyToFetch → s.wordAtPc.toNat = 0xF00A + x.val * 256 → (∀ k : Key, s.key[k] = false) →
    ∃ t, step s = .next t ∧ t.result = .ok ∧ ChangesOnlyList [] s t

/-- R172, R174, R175: Fx07 reads DT into Vx, Fx15 writes Vx to DT, Fx18 writes Vx to ST (the output sound_timer), and none
changes anything else. -/
def Obligations.TimerMoves : Prop :=
  ∀ (s : State) (x : Reg),
    (∃ t, exec (.ldVxDt x) s = .next t ∧ t.result = .ok ∧ (t.reg x).toNat = s.dt.toNat ∧
      ChangesOnlyList [.reg x] s t) ∧
    (∃ t, exec (.ldDtVx x) s = .next t ∧ t.result = .ok ∧ t.dt.toNat = (s.reg x).toNat ∧
      ChangesOnlyList [.delay] s t) ∧
    (∃ t, exec (.ldStVx x) s = .next t ∧ t.result = .ok ∧ t.soundTimer.toNat = (s.reg x).toNat ∧
      ChangesOnlyList [.sound] s t)

/-! ## Whole-machine rules -/

/-- R12 (the spec's decision D20): the loads and the immediate addition change Vx alone, the skips on an immediate PC
alone, Annn and Fx1E I alone. -/
def Obligations.SimpleInstructionsChangeOnlyWhatTheyName : Prop :=
  ∀ (s t : State) (x y : Reg) (nn : Byte) (nnn : Addr) (i : Instr), exec i s = .next t →
    (i = .ldByte x nn ∨ i = .addByte x nn ∨ i = .ldReg x y → ChangesOnlyList [.reg x] s t) ∧
    (i = .seByte x nn ∨ i = .sneByte x nn → ChangesOnlyList [.pc] s t) ∧
    (i = .ldI nnn ∨ i = .addI x → ChangesOnlyList [.index] s t)

/-- R24, R29, R36, R51, R207: who writes what. I changes only by Annn, Fx1E and Fx29; SP only by 2nnn and 00EE, a slot only
by 2nnn; the framebuffer only by 00E0 and Dxyn; memory only by Fx33 and Fx55; DT only by Fx15 and ST only by Fx18. That
00EE keeps the slot it pops is the model's choice (log 8; R31: "A model may keep them or not"). -/
def Obligations.WritersOfEachPieceOfState : Prop :=
  ∀ (i : Instr) (s t : State), exec i s = .next t →
    (t.i ≠ s.i → (∃ nnn, i = .ldI nnn) ∨ (∃ x, i = .addI x) ∨ ∃ x, i = .ldFont x) ∧
    (t.sp ≠ s.sp → (∃ nnn, i = .call nnn) ∨ i = .ret) ∧
    (t.stack ≠ s.stack → ∃ nnn, i = .call nnn) ∧
    (t.fb ≠ s.fb → i = .cls ∨ ∃ x y n, i = .drw x y n) ∧
    (t.mem ≠ s.mem → (∃ x, i = .ldBcd x) ∨ ∃ x, i = .storeRegs x) ∧
    (t.dt ≠ s.dt → ∃ x, i = .ldDtVx x) ∧
    (t.st ≠ s.st → ∃ x, i = .ldStVx x)

/-- R34, R38, R42, R198: no instruction writes the input latch or the host's schedule, and `halted` changes only by an
abort-class error, which sets it. -/
def Obligations.InstructionsNeverWriteTheLatch : Prop :=
  ∀ (i : Instr) (s t : State), exec i s = .next t →
    t.key = s.key ∧ t.schedule = s.schedule ∧ t.halted = (s.halted || t.result.aborts)

/-- R23: VF changes only by the six flag-writing instructions, or as the named destination of a load, an addition, a logic
operation, Cxnn, FF07, FF0A, or Fx65 with x = F. -/
def Obligations.OnlyNamedInstructionsWriteVF : Prop :=
  ∀ (i : Instr) (s t : State), exec i s = .next t → t.reg Reg.vf ≠ s.reg Reg.vf →
    (∃ x y, i = .addReg x y ∨ i = .subReg x y ∨ i = .shr x y ∨ i = .subnReg x y ∨ i = .shl x y) ∨
    (∃ x y n, i = .drw x y n) ∨
    (∃ nn, i = .ldByte Reg.vf nn ∨ i = .addByte Reg.vf nn ∨ i = .rnd Reg.vf nn) ∨
    (∃ y, i = .ldReg Reg.vf y ∨ i = .orReg Reg.vf y ∨ i = .andReg Reg.vf y ∨ i = .xorReg Reg.vf y) ∨
    i = .ldVxDt Reg.vf ∨ i = .ldVxKey Reg.vf ∨ i = .loadRegs Reg.vf

/-- R33, R175: no instruction reads ST: with another value in it, every instruction but Fx18 does the same and leaves that
value, and Fx18 does exactly the same. -/
def Obligations.SoundTimerIsNeverRead : Prop :=
  ∀ (i : Instr) (s t : State) (b : Byte), exec i s = .next t →
    ((∀ x, i ≠ .ldStVx x) → exec i { s with st := b } = .next { t with st := b }) ∧
    (∀ x, i = .ldStVx x → exec i { s with st := b } = .next t)

/-- R99: a core that is ready to fetch a self-jump runs safely for any number of steps. -/
def Obligations.SelfJumpRunsForEver : Prop :=
  ∀ (s : State) (n : Nat), s.ReadyToFetch → s.wordAtPc.toNat = 0x1000 + s.pc.toNat → SafeRun n s

/-! ## Host commands -/

/-- R220 (the framebuffer and KEY are the spec's decision D17): construction with any FONTSET puts its 80 bytes at
0x000-0x04F and sets every other byte, register, slot, timer, cell and key to 0, PC to 0x200; whatever the core's state
was. The host's schedule and the draws are no state of the core and stay. -/
def Obligations.ConstructionValues : Prop :=
  ∀ (s : State) (fontset : Vector Byte 80) (rest : List Command), s.schedule = .construct fontset :: rest →
    ∃ t, step s = .next t ∧ t.result = .ok ∧ t.schedule = rest ∧ t.draws = s.draws ∧ t.pc.toNat = 0x200 ∧
      (∀ (a : Nat) (ha : a < 80), t.mem.read a = fontset[a]) ∧
      (∀ c : Component, (∀ a, a < 80 → c ≠ .byte a) → c ≠ .pc → t.view c = 0)

/-- R221, R222 (the spec's decision D16, conflict C3): `reset` keeps the font bytes and KEY, sets PC to 0x200 and everything
else to 0, and returns Ok; a second reset leaves the same state. -/
def Obligations.ResetValues : Prop :=
  ∀ (s : State) (rest : List Command), s.schedule = .reset :: rest → s.mem.wf = true →
    ∃ t, step s = .next t ∧ t.result = .ok ∧ t.schedule = rest ∧ t.draws = s.draws ∧ t.pc.toNat = 0x200 ∧
      (∀ a, a < 80 → t.mem.read a = s.mem.read a) ∧ (∀ k : Key, t.key[k] = s.key[k]) ∧
      (∀ c : Component, (∀ a, a < 80 → c ≠ .byte a) → (∀ k, c ≠ .key k) → c ≠ .pc → t.view c = 0) ∧
      runCommand .reset t = .next t

/-- R223: after every `reset`, memory 0x200-0xFFF is all 0 and the font bytes are unchanged; in particular after
`load_program` of a program of at most 3584 bytes and then `reset`. -/
def Obligations.ResetErasesTheProgram : Prop :=
  (∀ (s : State) (rest : List Command), s.schedule = .reset :: rest → ∃ t, step s = .next t ∧
      (∀ a, 0x200 ≤ a → a < 0x1000 → t.mem.read a = 0) ∧ (∀ a, a < 80 → t.mem.read a = s.mem.read a)) ∧
  (∀ (s : State) (bytes : List Byte) (rest : List Command), s.mem.wf = true → bytes.length ≤ 3584 →
    s.schedule = .loadProgram bytes :: .reset :: rest →
    ∃ t u, step s = .next t ∧ step t = .next u ∧
      (∀ a, 0x200 ≤ a → a < 0x1000 → u.mem.read a = 0) ∧ (∀ a, a < 80 → u.mem.read a = s.mem.read a))

/-- R199, R224, R225 (the spec's decision D18): `load_program` of at most 3584 bytes copies the image to 0x200 on and
changes nothing else; a longer image returns ProgramTooLarge with its length and changes nothing; both also while the core
is halted (R198). -/
def Obligations.LoadProgramCopiesTheImage : Prop :=
  ∀ (s : State) (bytes : List Byte), s.mem.wf = true →
    (bytes.length ≤ 3584 → ∃ t, runCommand (.loadProgram bytes) s = .next t ∧ t.result = .ok ∧
      (∀ (k : Nat) (hk : k < bytes.length), t.mem.read (0x200 + k) = bytes[k]) ∧
      ChangesOnly (fun c => ∃ k, k < bytes.length ∧ c = .byte (0x200 + k)) s t) ∧
    (3584 < bytes.length → ∃ t, runCommand (.loadProgram bytes) s = .next t ∧
      t.result = .programTooLarge bytes.length ∧ ChangesOnlyList [] s t)

/-- R205: `tick_timers` lowers each timer that is nonzero by one, leaves one at 0, and changes nothing else, halted or
not. -/
def Obligations.TickLowersNonzeroTimers : Prop :=
  ∀ s : State, ∃ t, runCommand .tickTimers s = .next t ∧ t.result = .ok ∧
    (0 < s.dt.toNat → t.dt.toNat + 1 = s.dt.toNat) ∧ (s.dt.toNat = 0 → t.dt.toNat = 0) ∧
    (0 < s.st.toNat → t.st.toNat + 1 = s.st.toNat) ∧ (s.st.toNat = 0 → t.st.toNat = 0) ∧
    ChangesOnlyList [.delay, .sound] s t

/-- R205, R206, R231: between two steps the host may place any number of ticks: after n of them each timer is n lower,
stopping at 0, and nothing else has changed. -/
def Obligations.TicksCountDownToZero : Prop :=
  ∀ (n : Nat) (s : State) (rest : List Command), s.schedule = List.replicate n .tickTimers ++ rest →
    ∃ t, Machine.run n s = .next t ∧ t.schedule = rest ∧ t.dt.toNat = s.dt.toNat - n ∧
      t.st.toNat = s.st.toNat - n ∧ ChangesOnlyList [.delay, .sound] { s with schedule := rest } t

/-- R231: a program that writes DT with Fx15 and reads it back with Fy07 in the next instruction reads the value it wrote
less the number of ticks the host placed between the two steps, stopping at 0: any of them. -/
def Obligations.DelayReadBackDependsOnTheTicks : Prop :=
  ∀ (s : State) (x y : Reg) (n : Nat) (l l' : Bool) (rest : List Command),
    s.halted = false → s.pc.toNat + 2 ≤ 0xFFE → s.wordAtPc = encode (.ldDtVx x) →
    (s.setPc (s.pc + 2)).wordAtPc = encode (.ldVxDt y) →
    s.schedule = .step l :: (List.replicate n .tickTimers ++ .step l' :: rest) →
    ∃ t, Machine.run (n + 2) s = .next t ∧ t.result = .ok ∧ (t.reg y).toNat = (s.reg x).toNat - n ∧
      t.pc.toNat = s.pc.toNat + 4 ∧ t.schedule = rest

/-- R46: `set_key(k, p)` with k at most 15 sets KEY[k] to p and changes nothing else. -/
def Obligations.SetKeyWritesOneKey : Prop :=
  ∀ (s : State) (k : Key) (p : Bool), ∃ t, runCommand (.setKey k.val p) s = .next t ∧ t.result = .ok ∧
    t.key[k] = p ∧ ChangesOnlyList [.key k] s t

/-- R44, R47, R200 (the spec's decision D25): `is_set` on the screen returns the cell; off the screen, and `set_key` with an
index of 16 or more, the command is refused with BadArgument; none of these changes any state. -/
def Obligations.HostReadsAndRefusalsChangeNothing : Prop :=
  ∀ (s : State) (px py k : Nat) (p : Bool),
    (∃ t, runCommand (.isSet px py) s = .next t ∧ ChangesOnlyList [] s t ∧
      (∀ (hx : px < 64) (hy : py < 32), t.result = .pixel (s.fb.cell ⟨px, hx⟩ ⟨py, hy⟩)) ∧
      (64 ≤ px ∨ 32 ≤ py → t.result = .badArgument (.pixelAt px py))) ∧
    (16 ≤ k → ∃ t, runCommand (.setKey k p) s = .next t ∧ t.result = .badArgument (.keyIndex k) ∧
      ChangesOnlyList [] s t)
end

