-- ==== Sys2Proof/Laws/Decode.lean ====
section
/-! SUPPORT. Laws of the decoder: each mask test as arithmetic on the word, rows that never overlap, what a decoded word
means, and the numbers the formats encode. -/

namespace Sys2Proof

/-! The masks of R77 as arithmetic. -/

theorem nat_and_F000 (n : Nat) : n &&& 0xF000 = n / 4096 % 16 * 4096 := by
  have h : (0xF000 : Nat) = 15 <<< 12 := rfl
  have h2 : n / 4096 % 16 * 4096 = ((n >>> 12) &&& 15) <<< 12 := by
    rw [Nat.shiftLeft_eq, Nat.shiftRight_eq_div_pow, show (15 : Nat) = 2 ^ 4 - 1 from rfl,
      Nat.and_two_pow_sub_one_eq_mod]
  rw [h2, h]
  apply Nat.eq_of_testBit_eq
  intro i
  simp only [Nat.testBit_and, Nat.testBit_shiftLeft, Nat.testBit_shiftRight]
  by_cases hi : 12 ≤ i
  · simp [hi]
  · simp [hi]

/-- A mask of the group nibble and the low k bits. -/
theorem nat_and_group_low (n k : Nat) (hk : k ≤ 12) :
    n &&& (0xF000 + (2 ^ k - 1)) = n / 4096 % 16 * 4096 + n % 2 ^ k := by
  have hlt : 2 ^ k - 1 < 2 ^ 12 := by
    have : 2 ^ k ≤ 2 ^ 12 := Nat.pow_le_pow_right (by decide) hk
    omega
  have hor : 0xF000 + (2 ^ k - 1) = 0xF000 ||| (2 ^ k - 1) := Nat.shiftLeft_add_eq_or_of_lt hlt 15
  have hlt2 : n % 2 ^ k < 2 ^ 12 :=
    (Nat.mod_lt _ (Nat.two_pow_pos k)).trans_le (Nat.pow_le_pow_right (by decide) hk)
  have hsum := Nat.shiftLeft_add_eq_or_of_lt hlt2 (n / 4096 % 16)
  rw [hor, Nat.and_or_distrib_left, nat_and_F000, Nat.and_two_pow_sub_one_eq_mod]
  rw [Nat.shiftLeft_eq] at hsum
  exact hsum.symm

/-- A word under the mask of formats NNN, XNN and XYN. -/
theorem and_F000_eq (op p : Word) : op &&& 0xF000 = p ↔ op.toNat / 4096 * 4096 = p.toNat := by
  have h : (op &&& 0xF000).toNat = op.toNat / 4096 % 16 * 4096 := by
    rw [BitVec.toNat_and]; exact nat_and_F000 _
  rw [← BitVec.toNat_inj, h]
  have := op.isLt
  omega

/-- A word under the mask of format XYK. -/
theorem and_F00F_eq (op p : Word) :
    op &&& 0xF00F = p ↔ op.toNat / 4096 * 4096 + op.toNat % 16 = p.toNat := by
  have h : (op &&& 0xF00F).toNat = op.toNat / 4096 % 16 * 4096 + op.toNat % 16 := by
    rw [BitVec.toNat_and]; exact nat_and_group_low _ 4 (by decide)
  rw [← BitVec.toNat_inj, h]
  have := op.isLt
  omega

/-- A word under the mask of format XKK. -/
theorem and_F0FF_eq (op p : Word) :
    op &&& 0xF0FF = p ↔ op.toNat / 4096 * 4096 + op.toNat % 256 = p.toNat := by
  have h : (op &&& 0xF0FF).toNat = op.toNat / 4096 % 16 * 4096 + op.toNat % 256 := by
    rw [BitVec.toNat_and]; exact nat_and_group_low _ 8 (by decide)
  rw [← BitVec.toNat_inj, h]
  have := op.isLt
  omega

/-- A word under the mask of format FIXED. -/
theorem and_FFFF_eq (op p : Word) : op &&& 0xFFFF = p ↔ op.toNat = p.toNat := by
  have h : op &&& 0xFFFF = op := by
    have := BitVec.and_allOnes (x := op)
    simpa using this
  rw [h, BitVec.toNat_inj]

/-! Rows and decoding (R76, R81). -/

/-- The test of R76 as an equation. -/
@[simp] theorem OpcodeRow.accepts_iff (r : OpcodeRow) (op : Word) :
    r.accepts op = true ↔ op &&& r.mask = r.pattern := by
  simp [OpcodeRow.accepts]

/-- Any two rows of the table fix a common bit to different values (R81). -/
theorem opcodeRows_pairwise :
    opcodeRows.Pairwise (fun r r' => r.pattern &&& r'.mask ≠ r'.pattern &&& r.mask) := by decide

/-- Rows that fix a common bit differently accept no common word. -/
theorem OpcodeRow.not_both {r r' : OpcodeRow} (h : r.pattern &&& r'.mask ≠ r'.pattern &&& r.mask) {op : Word}
    (hr : r.accepts op = true) (hr' : r'.accepts op = true) : False := by
  rw [OpcodeRow.accepts_iff] at hr hr'
  apply h
  rw [← hr, ← hr', BitVec.and_assoc, BitVec.and_assoc, BitVec.and_comm r.mask]

/-- The rows of a table without overlaps: the first row that accepts a word is the one that does. -/
theorem find_eq_of_pairwise {rows : List OpcodeRow}
    (hp : rows.Pairwise (fun r r' => r.pattern &&& r'.mask ≠ r'.pattern &&& r.mask)) {op : Word} {r : OpcodeRow}
    (hm : r ∈ rows) (ha : r.accepts op = true) : rows.find? (fun r => r.accepts op) = some r := by
  induction rows with
  | nil => cases hm
  | cons q rows ih =>
    rw [List.pairwise_cons] at hp
    rcases List.mem_cons.mp hm with h | h
    · subst h; simp only [List.find?_cons, ha]
    · have hq : q.accepts op = false := by
        by_contra hc
        exact OpcodeRow.not_both (hp.1 r h) (Bool.eq_true_of_not_eq_false hc) ha
      simp only [List.find?_cons, hq]
      exact ih hp.2 h

/-- A word that a row accepts decodes to what the row makes of it. -/
theorem decodeWord_of_mem {op : Word} {r : OpcodeRow} (hm : r ∈ opcodeRows) (ha : r.accepts op = true) :
    decodeWord op = .ok (r.build op) := by
  unfold decodeWord
  rw [find_eq_of_pairwise opcodeRows_pairwise hm ha]

/-- The row the search finds accepts the word. -/
theorem accepts_of_find {op : Word} {r : OpcodeRow} (h : opcodeRows.find? (fun r => r.accepts op) = some r) :
    r.accepts op = true := (List.find?_eq_some_iff_append.mp h).1

/-- What a decoded instruction is: made by the row that accepts its word. -/
theorem decodeWord_ok_iff (op : Word) (i : Instr) :
    decodeWord op = .ok i ↔ ∃ r ∈ opcodeRows, r.accepts op = true ∧ r.build op = i := by
  constructor
  · unfold decodeWord
    split
    · rename_i r hr
      intro h
      exact ⟨r, List.mem_of_find?_eq_some hr, accepts_of_find hr, Except.ok.inj h⟩
    · intro h; cases h
  · rintro ⟨r, hm, ha, rfl⟩
    exact decodeWord_of_mem hm ha

/-- A word is rejected, with itself as the information, exactly if no row accepts it (R76, R80). -/
theorem decodeWord_error_iff (op : Word) (e : DecodeError) :
    decodeWord op = .error e ↔ e = .unknownOpcode op ∧ ∀ r ∈ opcodeRows, r.accepts op = false := by
  unfold decodeWord
  split
  · rename_i r hr
    constructor
    · intro h; cases h
    · rintro ⟨-, h⟩
      have := h r (List.mem_of_find?_eq_some hr)
      rw [accepts_of_find hr] at this
      cases this
  · rename_i hn
    rw [List.find?_eq_none] at hn
    constructor
    · intro h; exact ⟨(Except.error.inj h).symm, fun r hr => Bool.eq_false_of_not_eq_true (hn r hr)⟩
    · rintro ⟨rfl, -⟩; rfl

/-! Bytes and words (R55). -/

@[simp] theorem wordOfBytes_highByte_lowByte (w : Word) : wordOfBytes (highByte w) (lowByte w) = w := by
  apply BitVec.eq_of_toNat_eq
  have := w.isLt
  simp only [wordOfBytes, highByte, lowByte, BitVec.toNat_ofNat]
  omega

/-- Decoding two bytes is decoding their word. -/
theorem decode_cons_cons (hi lo : Byte) (rest : List Byte) (i : Instr) (h : decodeWord (wordOfBytes hi lo) = .ok i) :
    decode (hi :: lo :: rest) = .ok (i, rest) := by
  simp [decode, h]

/-! The numbers the formats encode (R73). -/

theorem toNat_formatNNN (g : Nat) (hg : g < 16) (nnn : Addr) : (formatNNN g nnn).toNat = g * 4096 + nnn.toNat := by
  have := nnn.isLt
  simp only [formatNNN, BitVec.toNat_ofNat]
  omega

theorem toNat_formatXNN (g : Nat) (hg : g < 16) (x : Reg) (nn : Byte) :
    (formatXNN g x nn).toNat = g * 4096 + x.val * 256 + nn.toNat := by
  have := nn.isLt
  have := x.isLt
  simp only [formatXNN, BitVec.toNat_ofNat]
  omega

theorem toNat_formatXYN (g : Nat) (hg : g < 16) (x y : Reg) (n : Nat) (hn : n < 16) :
    (formatXYN g x y n).toNat = g * 4096 + x.val * 256 + y.val * 16 + n := by
  have := y.isLt
  have := x.isLt
  simp only [formatXYN, BitVec.toNat_ofNat]
  omega

theorem toNat_formatXKK (g : Nat) (hg : g < 16) (x : Reg) (kk : Nat) (hk : kk < 256) :
    (formatXKK g x kk).toNat = g * 4096 + x.val * 256 + kk := by
  have := x.isLt
  simp only [formatXKK, BitVec.toNat_ofNat]
  omega

/-! The fields of an encoded word (R71). -/

theorem fieldX_eq (op : Word) (x : Reg) (h : op.toNat / 256 % 16 = x.val) : fieldX op = x := Fin.ext h

theorem fieldY_eq (op : Word) (y : Reg) (h : op.toNat / 16 % 16 = y.val) : fieldY op = y := Fin.ext h

theorem fieldNN_eq (op : Word) (nn : Byte) (h : op.toNat % 256 = nn.toNat) : fieldNN op = nn := by
  apply BitVec.eq_of_toNat_eq
  rw [← h, fieldNN, BitVec.toNat_ofNat]

theorem fieldNNN_eq (op : Word) (nnn : Addr) (h : op.toNat % 4096 = nnn.toNat) : fieldNNN op = nnn := by
  apply BitVec.eq_of_toNat_eq
  rw [← h, fieldNNN, BitVec.toNat_ofNat]

end Sys2Proof
end

