-- ==== Sys2Proof/Laws/Memory.lean ====
section
/-! SUPPORT. The laws of memory: reads after writes, the canonical form kept by every operation, equal reads of equal
data. -/

namespace Sys2Proof.Machine

/-- The canonical form from `low`, one entry unfolded. -/
theorem Memory.wfFrom_cons (low a : Nat) (v : Byte) (m : Memory) :
    Memory.wfFrom low ((a, v) :: m) = true ↔
      low ≤ a ∧ a < 0x1000 ∧ v ≠ Memory.unlisted a ∧ Memory.wfFrom (a + 1) m = true := by
  simp [Memory.wfFrom, and_assoc]

/-- A lower bound may be lowered. -/
theorem Memory.wfFrom_mono {m : Memory} {low low' : Nat} (h : low' ≤ low) (hm : Memory.wfFrom low m = true) :
    Memory.wfFrom low' m = true := by
  cases m with
  | nil => rfl
  | cons c m =>
    obtain ⟨a, v⟩ := c
    rw [Memory.wfFrom_cons] at hm ⊢
    exact ⟨h.trans hm.1, hm.2⟩

/-- An address below every entry reads as unlisted. -/
theorem Memory.read_of_wfFrom {m : Memory} {low a : Nat} (hm : Memory.wfFrom low m = true) (h : a < low) :
    m.read a = Memory.unlisted a := by
  induction m generalizing low with
  | nil => rfl
  | cons c m ih =>
    obtain ⟨b, w⟩ := c
    rw [Memory.wfFrom_cons] at hm
    rw [Memory.read, if_neg (by omega), ih hm.2.2.2 (by omega)]

/-- A write keeps the canonical form. -/
theorem Memory.wfFrom_write {m : Memory} {low a : Nat} (v : Byte) (hm : Memory.wfFrom low m = true) (hl : low ≤ a)
    (ha : a < 0x1000) : Memory.wfFrom low (m.write a v) = true := by
  induction m generalizing low with
  | nil =>
    by_cases hv : v = Memory.unlisted a
    · simp [Memory.write, hv, Memory.wfFrom]
    · simp only [Memory.write, if_neg hv, Memory.wfFrom_cons]
      exact ⟨hl, ha, hv, rfl⟩
  | cons c m ih =>
    obtain ⟨b, w⟩ := c
    have hb := (Memory.wfFrom_cons low b w m).mp hm
    unfold Memory.write
    split
    · split
      · exact hm
      · rename_i hlt hv
        exact (Memory.wfFrom_cons _ _ _ _).mpr
          ⟨hl, ha, hv, (Memory.wfFrom_cons _ _ _ _).mpr ⟨hlt, hb.2⟩⟩
    · split
      · rename_i heq
        subst heq
        split
        · exact Memory.wfFrom_mono (by omega) hb.2.2.2
        · rename_i hv
          exact (Memory.wfFrom_cons _ _ _ _).mpr ⟨hl, ha, hv, hb.2.2.2⟩
      · exact (Memory.wfFrom_cons _ _ _ _).mpr ⟨hb.1, hb.2.1, hb.2.2.1, ih hb.2.2.2 (by omega)⟩

/-- A read after a write, from a lower bound of the entries. -/
theorem Memory.read_write_from {m : Memory} {low : Nat} (hm : Memory.wfFrom low m = true) (a b : Nat) (v : Byte) :
    (m.write a v).read b = if b = a then v else m.read b := by
  induction m generalizing low with
  | nil =>
    by_cases hv : v = Memory.unlisted a
    · by_cases hb : b = a
      · simp [Memory.write, hv, hb, Memory.read]
      · simp [Memory.write, hv, hb]
    · simp [Memory.write, hv, Memory.read]
  | cons c m ih =>
    obtain ⟨d, w⟩ := c
    have hd := (Memory.wfFrom_cons low d w m).mp hm
    unfold Memory.write
    split
    · rename_i hlt
      split
      · rename_i hv
        by_cases hb : b = a
        · rw [if_pos hb, hb, Memory.read, if_neg (by omega), Memory.read_of_wfFrom hd.2.2.2 (by omega), hv]
        · rw [if_neg hb]
      · rw [Memory.read]
    · split
      · rename_i heq
        subst heq
        split
        · rename_i hv
          by_cases hb : b = a
          · rw [if_pos hb, hb, Memory.read_of_wfFrom hd.2.2.2 (by omega), hv]
          · rw [if_neg hb, Memory.read, if_neg hb]
        · by_cases hb : b = a <;> simp [Memory.read, hb]
      · rename_i hne
        rw [Memory.read, ih hd.2.2.2, Memory.read]
        by_cases hb : b = a
        · rw [if_neg (by omega), if_pos hb, if_pos hb]
        · simp [hb]

/-- `MemRead` after `MemWrite` (R60, R61). -/
theorem Memory.read_write {m : Memory} (hm : m.wf = true) (a b : Nat) (v : Byte) :
    (m.write a v).read b = if b = a then v else m.read b :=
  Memory.read_write_from hm a b v

/-- A write keeps the canonical form. -/
theorem Memory.wf_write {m : Memory} (hm : m.wf = true) {a : Nat} (ha : a < 0x1000) (v : Byte) :
    (m.write a v).wf = true :=
  Memory.wfFrom_write v hm (Nat.zero_le a) ha

/-- A store of several bytes keeps the canonical form. -/
theorem Memory.wf_writeBytes {m : Memory} (hm : m.wf = true) {a : Nat} {bs : List Byte}
    (h : a + bs.length ≤ 0x1000) : (m.writeBytes a bs).wf = true := by
  induction bs generalizing m a with
  | nil => exact hm
  | cons b bs ih =>
    simp only [List.length_cons] at h
    exact ih (Memory.wf_write hm (by omega) b) (by omega)

/-- What a byte reads as after a store of several bytes (R61). -/
theorem Memory.read_writeBytes {m : Memory} (hm : m.wf = true) {a : Nat} {bs : List Byte}
    (h : a + bs.length ≤ 0x1000) (b : Nat) :
    (m.writeBytes a bs).read b =
      if hb : a ≤ b ∧ b < a + bs.length then bs[b - a]'(by omega) else m.read b := by
  induction bs generalizing m a with
  | nil => rw [dif_neg (by simp)]; rfl
  | cons v bs ih =>
    simp only [List.length_cons] at h ⊢
    rw [Memory.writeBytes, ih (Memory.wf_write hm (by omega) v) (by omega), Memory.read_write hm]
    by_cases h1 : a + 1 ≤ b ∧ b < a + 1 + bs.length
    · rw [dif_pos h1, dif_pos (by omega)]
      have : b - a = (b - (a + 1)) + 1 := by omega
      simp [this]
    · rw [dif_neg h1]
      by_cases h2 : b = a
      · subst h2; rw [if_pos rfl, dif_pos (by omega)]; simp
      · rw [if_neg h2, dif_neg (by omega)]

/-- Memory at power-on reads as its power-on contents. -/
@[simp] theorem Memory.read_nil (a : Nat) : Memory.read [] a = Memory.unlisted a := rfl

@[simp] theorem Memory.wf_nil : Memory.wf [] = true := rfl

/-- Above the font, memory's power-on contents are 0 (R48). -/
theorem Memory.unlisted_of_ge {a : Nat} (h : 80 ≤ a) : Memory.unlisted a = 0 := by
  have hl : defaultFontset.length = 80 := by decide
  simp [Memory.unlisted, List.getD_eq_getElem?_getD, List.getElem?_eq_none (hl.trans_le h)]

/-- `reset` keeps the canonical form of memory. -/
theorem Memory.wfFrom_clearAboveFont {m : Memory} {low : Nat} (hm : Memory.wfFrom low m = true) :
    Memory.wfFrom low m.clearAboveFont = true := by
  induction m generalizing low with
  | nil => rfl
  | cons c m ih =>
    obtain ⟨a, v⟩ := c
    rw [Memory.wfFrom_cons] at hm
    have h := ih hm.2.2.2
    rw [Memory.clearAboveFont, List.filter_cons]
    split
    · exact (Memory.wfFrom_cons _ _ _ _).mpr ⟨hm.1, hm.2.1, hm.2.2.1, h⟩
    · exact Memory.wfFrom_mono (by omega) h

theorem Memory.wf_clearAboveFont {m : Memory} (hm : m.wf = true) : m.clearAboveFont.wf = true :=
  Memory.wfFrom_clearAboveFont hm

/-- What a byte reads as after `reset` (R221). -/
theorem Memory.read_clearAboveFont (m : Memory) (a : Nat) :
    m.clearAboveFont.read a = if a < 80 then m.read a else 0 := by
  induction m with
  | nil =>
    show Memory.unlisted a = _
    split
    · rfl
    · exact Memory.unlisted_of_ge (Nat.le_of_not_lt ‹_›)
  | cons c m ih =>
    obtain ⟨b, w⟩ := c
    rw [Memory.clearAboveFont, List.filter_cons]
    rw [Memory.clearAboveFont] at ih
    by_cases hb : b < 80
    · simp only [hb, decide_true, if_true, Memory.read, ih]
      by_cases hab : a = b
      · simp [hab, hb]
      · simp [hab]
    · simp only [hb, decide_false, Bool.false_eq_true, if_false, ih, Memory.read]
      by_cases ha : a < 80
      · rw [if_pos ha, if_pos ha, if_neg (by omega)]
      · rw [if_neg ha, if_neg ha]

/-- A second reset of memory changes nothing more (R222). -/
@[simp] theorem Memory.clearAboveFont_clearAboveFont (m : Memory) :
    m.clearAboveFont.clearAboveFont = m.clearAboveFont := by
  simp [Memory.clearAboveFont, List.filter_filter]

end Sys2Proof.Machine
end

