-- ==== Sys2Proof/Laws/State.lean ====
section
/-! SUPPORT. What each named update of the state leaves and writes: one lemma per field per update, true by rfl, so that no
proof unfolds a record update. -/

namespace Sys2Proof.Machine

variable (s : State)

@[simp] theorem State.setReg_v (x : Reg) (b : Byte) : (s.setReg x b).v = s.v.set x b := rfl
@[simp] theorem State.setReg_i (x : Reg) (b : Byte) : (s.setReg x b).i = s.i := rfl
@[simp] theorem State.setReg_pc (x : Reg) (b : Byte) : (s.setReg x b).pc = s.pc := rfl
@[simp] theorem State.setReg_sp (x : Reg) (b : Byte) : (s.setReg x b).sp = s.sp := rfl
@[simp] theorem State.setReg_stack (x : Reg) (b : Byte) : (s.setReg x b).stack = s.stack := rfl
@[simp] theorem State.setReg_dt (x : Reg) (b : Byte) : (s.setReg x b).dt = s.dt := rfl
@[simp] theorem State.setReg_st (x : Reg) (b : Byte) : (s.setReg x b).st = s.st := rfl
@[simp] theorem State.setReg_mem (x : Reg) (b : Byte) : (s.setReg x b).mem = s.mem := rfl
@[simp] theorem State.setReg_fb (x : Reg) (b : Byte) : (s.setReg x b).fb = s.fb := rfl
@[simp] theorem State.setReg_key (x : Reg) (b : Byte) : (s.setReg x b).key = s.key := rfl
@[simp] theorem State.setReg_halted (x : Reg) (b : Byte) : (s.setReg x b).halted = s.halted := rfl
@[simp] theorem State.setReg_result (x : Reg) (b : Byte) : (s.setReg x b).result = s.result := rfl
@[simp] theorem State.setReg_draws (x : Reg) (b : Byte) : (s.setReg x b).draws = s.draws := rfl
@[simp] theorem State.setReg_schedule (x : Reg) (b : Byte) : (s.setReg x b).schedule = s.schedule := rfl

@[simp] theorem State.setIndex_v (w : Word) : (s.setIndex w).v = s.v := rfl
@[simp] theorem State.setIndex_i (w : Word) : (s.setIndex w).i = w := rfl
@[simp] theorem State.setIndex_pc (w : Word) : (s.setIndex w).pc = s.pc := rfl
@[simp] theorem State.setIndex_sp (w : Word) : (s.setIndex w).sp = s.sp := rfl
@[simp] theorem State.setIndex_stack (w : Word) : (s.setIndex w).stack = s.stack := rfl
@[simp] theorem State.setIndex_dt (w : Word) : (s.setIndex w).dt = s.dt := rfl
@[simp] theorem State.setIndex_st (w : Word) : (s.setIndex w).st = s.st := rfl
@[simp] theorem State.setIndex_mem (w : Word) : (s.setIndex w).mem = s.mem := rfl
@[simp] theorem State.setIndex_fb (w : Word) : (s.setIndex w).fb = s.fb := rfl
@[simp] theorem State.setIndex_key (w : Word) : (s.setIndex w).key = s.key := rfl
@[simp] theorem State.setIndex_halted (w : Word) : (s.setIndex w).halted = s.halted := rfl
@[simp] theorem State.setIndex_result (w : Word) : (s.setIndex w).result = s.result := rfl
@[simp] theorem State.setIndex_draws (w : Word) : (s.setIndex w).draws = s.draws := rfl
@[simp] theorem State.setIndex_schedule (w : Word) : (s.setIndex w).schedule = s.schedule := rfl

@[simp] theorem State.setPc_v (w : Word) : (s.setPc w).v = s.v := rfl
@[simp] theorem State.setPc_i (w : Word) : (s.setPc w).i = s.i := rfl
@[simp] theorem State.setPc_pc (w : Word) : (s.setPc w).pc = w := rfl
@[simp] theorem State.setPc_sp (w : Word) : (s.setPc w).sp = s.sp := rfl
@[simp] theorem State.setPc_stack (w : Word) : (s.setPc w).stack = s.stack := rfl
@[simp] theorem State.setPc_dt (w : Word) : (s.setPc w).dt = s.dt := rfl
@[simp] theorem State.setPc_st (w : Word) : (s.setPc w).st = s.st := rfl
@[simp] theorem State.setPc_mem (w : Word) : (s.setPc w).mem = s.mem := rfl
@[simp] theorem State.setPc_fb (w : Word) : (s.setPc w).fb = s.fb := rfl
@[simp] theorem State.setPc_key (w : Word) : (s.setPc w).key = s.key := rfl
@[simp] theorem State.setPc_halted (w : Word) : (s.setPc w).halted = s.halted := rfl
@[simp] theorem State.setPc_result (w : Word) : (s.setPc w).result = s.result := rfl
@[simp] theorem State.setPc_draws (w : Word) : (s.setPc w).draws = s.draws := rfl
@[simp] theorem State.setPc_schedule (w : Word) : (s.setPc w).schedule = s.schedule := rfl

@[simp] theorem State.setDelay_v (b : Byte) : (s.setDelay b).v = s.v := rfl
@[simp] theorem State.setDelay_i (b : Byte) : (s.setDelay b).i = s.i := rfl
@[simp] theorem State.setDelay_pc (b : Byte) : (s.setDelay b).pc = s.pc := rfl
@[simp] theorem State.setDelay_sp (b : Byte) : (s.setDelay b).sp = s.sp := rfl
@[simp] theorem State.setDelay_stack (b : Byte) : (s.setDelay b).stack = s.stack := rfl
@[simp] theorem State.setDelay_dt (b : Byte) : (s.setDelay b).dt = b := rfl
@[simp] theorem State.setDelay_st (b : Byte) : (s.setDelay b).st = s.st := rfl
@[simp] theorem State.setDelay_mem (b : Byte) : (s.setDelay b).mem = s.mem := rfl
@[simp] theorem State.setDelay_fb (b : Byte) : (s.setDelay b).fb = s.fb := rfl
@[simp] theorem State.setDelay_key (b : Byte) : (s.setDelay b).key = s.key := rfl
@[simp] theorem State.setDelay_halted (b : Byte) : (s.setDelay b).halted = s.halted := rfl
@[simp] theorem State.setDelay_result (b : Byte) : (s.setDelay b).result = s.result := rfl
@[simp] theorem State.setDelay_draws (b : Byte) : (s.setDelay b).draws = s.draws := rfl
@[simp] theorem State.setDelay_schedule (b : Byte) : (s.setDelay b).schedule = s.schedule := rfl

@[simp] theorem State.setSound_v (b : Byte) : (s.setSound b).v = s.v := rfl
@[simp] theorem State.setSound_i (b : Byte) : (s.setSound b).i = s.i := rfl
@[simp] theorem State.setSound_pc (b : Byte) : (s.setSound b).pc = s.pc := rfl
@[simp] theorem State.setSound_sp (b : Byte) : (s.setSound b).sp = s.sp := rfl
@[simp] theorem State.setSound_stack (b : Byte) : (s.setSound b).stack = s.stack := rfl
@[simp] theorem State.setSound_dt (b : Byte) : (s.setSound b).dt = s.dt := rfl
@[simp] theorem State.setSound_st (b : Byte) : (s.setSound b).st = b := rfl
@[simp] theorem State.setSound_mem (b : Byte) : (s.setSound b).mem = s.mem := rfl
@[simp] theorem State.setSound_fb (b : Byte) : (s.setSound b).fb = s.fb := rfl
@[simp] theorem State.setSound_key (b : Byte) : (s.setSound b).key = s.key := rfl
@[simp] theorem State.setSound_halted (b : Byte) : (s.setSound b).halted = s.halted := rfl
@[simp] theorem State.setSound_result (b : Byte) : (s.setSound b).result = s.result := rfl
@[simp] theorem State.setSound_draws (b : Byte) : (s.setSound b).draws = s.draws := rfl
@[simp] theorem State.setSound_schedule (b : Byte) : (s.setSound b).schedule = s.schedule := rfl

@[simp] theorem State.setMem_v (m : Memory) : (s.setMem m).v = s.v := rfl
@[simp] theorem State.setMem_i (m : Memory) : (s.setMem m).i = s.i := rfl
@[simp] theorem State.setMem_pc (m : Memory) : (s.setMem m).pc = s.pc := rfl
@[simp] theorem State.setMem_sp (m : Memory) : (s.setMem m).sp = s.sp := rfl
@[simp] theorem State.setMem_stack (m : Memory) : (s.setMem m).stack = s.stack := rfl
@[simp] theorem State.setMem_dt (m : Memory) : (s.setMem m).dt = s.dt := rfl
@[simp] theorem State.setMem_st (m : Memory) : (s.setMem m).st = s.st := rfl
@[simp] theorem State.setMem_mem (m : Memory) : (s.setMem m).mem = m := rfl
@[simp] theorem State.setMem_fb (m : Memory) : (s.setMem m).fb = s.fb := rfl
@[simp] theorem State.setMem_key (m : Memory) : (s.setMem m).key = s.key := rfl
@[simp] theorem State.setMem_halted (m : Memory) : (s.setMem m).halted = s.halted := rfl
@[simp] theorem State.setMem_result (m : Memory) : (s.setMem m).result = s.result := rfl
@[simp] theorem State.setMem_draws (m : Memory) : (s.setMem m).draws = s.draws := rfl
@[simp] theorem State.setMem_schedule (m : Memory) : (s.setMem m).schedule = s.schedule := rfl

@[simp] theorem State.setFb_v (f : Framebuffer) : (s.setFb f).v = s.v := rfl
@[simp] theorem State.setFb_i (f : Framebuffer) : (s.setFb f).i = s.i := rfl
@[simp] theorem State.setFb_pc (f : Framebuffer) : (s.setFb f).pc = s.pc := rfl
@[simp] theorem State.setFb_sp (f : Framebuffer) : (s.setFb f).sp = s.sp := rfl
@[simp] theorem State.setFb_stack (f : Framebuffer) : (s.setFb f).stack = s.stack := rfl
@[simp] theorem State.setFb_dt (f : Framebuffer) : (s.setFb f).dt = s.dt := rfl
@[simp] theorem State.setFb_st (f : Framebuffer) : (s.setFb f).st = s.st := rfl
@[simp] theorem State.setFb_mem (f : Framebuffer) : (s.setFb f).mem = s.mem := rfl
@[simp] theorem State.setFb_fb (f : Framebuffer) : (s.setFb f).fb = f := rfl
@[simp] theorem State.setFb_key (f : Framebuffer) : (s.setFb f).key = s.key := rfl
@[simp] theorem State.setFb_halted (f : Framebuffer) : (s.setFb f).halted = s.halted := rfl
@[simp] theorem State.setFb_result (f : Framebuffer) : (s.setFb f).result = s.result := rfl
@[simp] theorem State.setFb_draws (f : Framebuffer) : (s.setFb f).draws = s.draws := rfl
@[simp] theorem State.setFb_schedule (f : Framebuffer) : (s.setFb f).schedule = s.schedule := rfl

@[simp] theorem State.setResult_v (r : Result) : (s.setResult r).v = s.v := rfl
@[simp] theorem State.setResult_i (r : Result) : (s.setResult r).i = s.i := rfl
@[simp] theorem State.setResult_pc (r : Result) : (s.setResult r).pc = s.pc := rfl
@[simp] theorem State.setResult_sp (r : Result) : (s.setResult r).sp = s.sp := rfl
@[simp] theorem State.setResult_stack (r : Result) : (s.setResult r).stack = s.stack := rfl
@[simp] theorem State.setResult_dt (r : Result) : (s.setResult r).dt = s.dt := rfl
@[simp] theorem State.setResult_st (r : Result) : (s.setResult r).st = s.st := rfl
@[simp] theorem State.setResult_mem (r : Result) : (s.setResult r).mem = s.mem := rfl
@[simp] theorem State.setResult_fb (r : Result) : (s.setResult r).fb = s.fb := rfl
@[simp] theorem State.setResult_key (r : Result) : (s.setResult r).key = s.key := rfl
@[simp] theorem State.setResult_halted (r : Result) : (s.setResult r).halted = s.halted := rfl
@[simp] theorem State.setResult_result (r : Result) : (s.setResult r).result = r := rfl
@[simp] theorem State.setResult_draws (r : Result) : (s.setResult r).draws = s.draws := rfl
@[simp] theorem State.setResult_schedule (r : Result) : (s.setResult r).schedule = s.schedule := rfl

@[simp] theorem State.skipNext_v : s.skipNext.v = s.v := rfl
@[simp] theorem State.skipNext_i : s.skipNext.i = s.i := rfl
@[simp] theorem State.skipNext_pc : s.skipNext.pc = s.pc + 2 := rfl
@[simp] theorem State.skipNext_sp : s.skipNext.sp = s.sp := rfl
@[simp] theorem State.skipNext_stack : s.skipNext.stack = s.stack := rfl
@[simp] theorem State.skipNext_dt : s.skipNext.dt = s.dt := rfl
@[simp] theorem State.skipNext_st : s.skipNext.st = s.st := rfl
@[simp] theorem State.skipNext_mem : s.skipNext.mem = s.mem := rfl
@[simp] theorem State.skipNext_fb : s.skipNext.fb = s.fb := rfl
@[simp] theorem State.skipNext_key : s.skipNext.key = s.key := rfl
@[simp] theorem State.skipNext_halted : s.skipNext.halted = s.halted := rfl
@[simp] theorem State.skipNext_result : s.skipNext.result = s.result := rfl
@[simp] theorem State.skipNext_draws : s.skipNext.draws = s.draws := rfl
@[simp] theorem State.skipNext_schedule : s.skipNext.schedule = s.schedule := rfl

@[simp] theorem State.advancePc_v : s.advancePc.v = s.v := rfl
@[simp] theorem State.advancePc_i : s.advancePc.i = s.i := rfl
@[simp] theorem State.advancePc_pc : s.advancePc.pc = s.pc + 2 := rfl
@[simp] theorem State.advancePc_sp : s.advancePc.sp = s.sp := rfl
@[simp] theorem State.advancePc_stack : s.advancePc.stack = s.stack := rfl
@[simp] theorem State.advancePc_dt : s.advancePc.dt = s.dt := rfl
@[simp] theorem State.advancePc_st : s.advancePc.st = s.st := rfl
@[simp] theorem State.advancePc_mem : s.advancePc.mem = s.mem := rfl
@[simp] theorem State.advancePc_fb : s.advancePc.fb = s.fb := rfl
@[simp] theorem State.advancePc_key : s.advancePc.key = s.key := rfl
@[simp] theorem State.advancePc_halted : s.advancePc.halted = s.halted := rfl
@[simp] theorem State.advancePc_result : s.advancePc.result = s.result := rfl
@[simp] theorem State.advancePc_draws : s.advancePc.draws = s.draws := rfl
@[simp] theorem State.advancePc_schedule : s.advancePc.schedule = s.schedule := rfl

/-- Reading a register after a register write. -/
theorem State.reg_setReg (x r : Reg) (b : Byte) : (s.setReg x b).reg r = if r = x then b else s.reg r := by
  by_cases h : r = x
  · subst h; simp [State.reg]
  · have h' : x.val ≠ r.val := fun e => h (Fin.ext e.symm)
    simp [State.reg, h, Vector.getElem_set_ne, h']

@[simp] theorem State.reg_setReg_same (x : Reg) (b : Byte) : (s.setReg x b).reg x = b := by
  simp [State.reg_setReg]

/-- The flag, then the result: what each register reads afterwards (R11). -/
theorem State.reg_setFlagThenReg (flag : Byte) (x r : Reg) (b : Byte) :
    (s.setFlagThenReg flag x b).reg r = if r = x then b else if r = Reg.vf then flag else s.reg r := by
  simp [State.setFlagThenReg, State.reg_setReg]

/-! A register reads the same in states with the same register file. -/

@[simp] theorem State.reg_setIndex (w : Word) (r : Reg) : (s.setIndex w).reg r = s.reg r := rfl
@[simp] theorem State.reg_setPc (w : Word) (r : Reg) : (s.setPc w).reg r = s.reg r := rfl
@[simp] theorem State.reg_setDelay (b : Byte) (r : Reg) : (s.setDelay b).reg r = s.reg r := rfl
@[simp] theorem State.reg_setSound (b : Byte) (r : Reg) : (s.setSound b).reg r = s.reg r := rfl
@[simp] theorem State.reg_setMem (m : Memory) (r : Reg) : (s.setMem m).reg r = s.reg r := rfl
@[simp] theorem State.reg_setFb (f : Framebuffer) (r : Reg) : (s.setFb f).reg r = s.reg r := rfl
@[simp] theorem State.reg_setResult (e : Result) (r : Reg) : (s.setResult e).reg r = s.reg r := rfl
@[simp] theorem State.reg_skipNext (r : Reg) : s.skipNext.reg r = s.reg r := rfl
@[simp] theorem State.reg_advancePc (r : Reg) : s.advancePc.reg r = s.reg r := rfl

/-! The view of a state, one component at a time. -/

@[simp] theorem State.view_reg (r : Reg) : s.view (.reg r) = (s.reg r).toNat := rfl
@[simp] theorem State.view_index : s.view .index = s.i.toNat := rfl
@[simp] theorem State.view_pc : s.view .pc = s.pc.toNat := rfl
@[simp] theorem State.view_sp : s.view .sp = s.sp.val := rfl
@[simp] theorem State.view_slot (j : Fin 16) : s.view (.slot j) = s.stack[j].toNat := rfl
@[simp] theorem State.view_delay : s.view .delay = s.dt.toNat := rfl
@[simp] theorem State.view_sound : s.view .sound = s.st.toNat := rfl
@[simp] theorem State.view_byte (a : Nat) : s.view (.byte a) = (s.mem.read a).toNat := rfl
@[simp] theorem State.view_pixel (px : Col) (py : Row) : s.view (.pixel px py) = (s.fb.cell px py).toNat := rfl
@[simp] theorem State.view_key (k : Key) : s.view (.key k) = s.key[k].toNat := rfl
@[simp] theorem State.view_halted : s.view .halted = s.halted.toNat := rfl

/-- A state that differs in nothing but its result changes nothing. -/
theorem changesOnly_setResult (W : Component → Prop) (r : Result) : ChangesOnly W s (s.setResult r) :=
  ⟨fun c _ => by cases c <;> rfl, rfl, rfl⟩

/-- Changing nothing but W and then only the result is changing nothing but W. -/
theorem ChangesOnly.setResult {W : Component → Prop} {s t : State} (h : ChangesOnly W s t) (r : Result) :
    ChangesOnly W s (t.setResult r) :=
  ⟨fun c hc => by rw [← h.view_eq c hc]; cases c <;> rfl, h.draws_eq, h.schedule_eq⟩

end Sys2Proof.Machine
end

