-- ==== Sys2Proof/Laws/Ops.lean ====
section
/-! SUPPORT. The shared operations of Machine/Ops.lean: what each answers and what it leaves unchanged. -/

namespace Sys2Proof.Machine

/-! How a command ends. -/

theorem finish_eq (s : State) : finish s = .next (s.setResult .ok) := rfl

theorem finish_next_iff (s t : State) : finish s = .next t ↔ t = s.setResult .ok := by
  simp [finish, eq_comm]

theorem raise_eq (e : Result) (s : State) :
    raise e s = .next { s with result := e, halted := s.halted || e.aborts } := rfl

theorem raise_next_iff (e : Result) (s t : State) :
    raise e s = .next t ↔ t = { s with result := e, halted := s.halted || e.aborts } := by
  simp [raise, eq_comm]

theorem skipIf_eq (c : Bool) (s : State) :
    skipIf c s = .next ((if c then s.skipNext else s).setResult .ok) := rfl

/-! Frames: what a named update changes, and how frames compose. -/

theorem ChangesOnly.refl (W : Component → Prop) (s : State) : ChangesOnly W s s := ⟨fun _ _ => rfl, rfl, rfl⟩

theorem ChangesOnly.trans {W : Component → Prop} {s t u : State} (h : ChangesOnly W s t) (h' : ChangesOnly W t u) :
    ChangesOnly W s u :=
  ⟨fun c hc => (h'.view_eq c hc).trans (h.view_eq c hc), h'.draws_eq.trans h.draws_eq,
    h'.schedule_eq.trans h.schedule_eq⟩

theorem ChangesOnly.mono {W W' : Component → Prop} {s t : State} (h : ChangesOnly W s t) (hw : ∀ c, W c → W' c) :
    ChangesOnly W' s t :=
  ⟨fun c hc => h.view_eq c (fun hc' => hc (hw c hc')), h.draws_eq, h.schedule_eq⟩

theorem changesOnly_setReg {W : Component → Prop} (s : State) {x : Reg} (hx : W (.reg x)) (b : Byte) :
    ChangesOnly W s (s.setReg x b) := by
  refine ⟨fun c hc => ?_, rfl, rfl⟩
  cases c with
  | reg r =>
    have hr : r ≠ x := fun e => hc (e ▸ hx)
    simp [State.reg_setReg, hr]
  | _ => rfl

theorem changesOnly_setPc {W : Component → Prop} (s : State) (h : W .pc) (w : Word) :
    ChangesOnly W s (s.setPc w) := by
  refine ⟨fun c hc => ?_, rfl, rfl⟩
  cases c with
  | pc => exact absurd h hc
  | _ => rfl

theorem changesOnly_setIndex {W : Component → Prop} (s : State) (h : W .index) (w : Word) :
    ChangesOnly W s (s.setIndex w) := by
  refine ⟨fun c hc => ?_, rfl, rfl⟩
  cases c with
  | index => exact absurd h hc
  | _ => rfl

theorem changesOnly_setDelay {W : Component → Prop} (s : State) (h : W .delay) (b : Byte) :
    ChangesOnly W s (s.setDelay b) := by
  refine ⟨fun c hc => ?_, rfl, rfl⟩
  cases c with
  | delay => exact absurd h hc
  | _ => rfl

theorem changesOnly_setSound {W : Component → Prop} (s : State) (h : W .sound) (b : Byte) :
    ChangesOnly W s (s.setSound b) := by
  refine ⟨fun c hc => ?_, rfl, rfl⟩
  cases c with
  | sound => exact absurd h hc
  | _ => rfl

/-- A memory that reads the same outside the bytes of W. -/
theorem changesOnly_setMem {W : Component → Prop} (s : State) (m : Memory)
    (h : ∀ a, ¬ W (.byte a) → m.read a = s.mem.read a) : ChangesOnly W s (s.setMem m) := by
  refine ⟨fun c hc => ?_, rfl, rfl⟩
  cases c with
  | byte a => simp [h a hc]
  | _ => rfl

/-- A framebuffer whose cells outside W are the same. -/
theorem changesOnly_setFb {W : Component → Prop} (s : State) (f : Framebuffer)
    (h : ∀ px py, ¬ W (.pixel px py) → f.cell px py = s.fb.cell px py) : ChangesOnly W s (s.setFb f) := by
  refine ⟨fun c hc => ?_, rfl, rfl⟩
  cases c with
  | pixel px py => simp [h px py hc]
  | _ => rfl

theorem changesOnly_setFlagThenReg {W : Component → Prop} (s : State) {x : Reg} (hx : W (.reg x))
    (hf : W (.reg Reg.vf)) (flag b : Byte) : ChangesOnly W s (s.setFlagThenReg flag x b) :=
  (changesOnly_setReg s hf flag).trans (changesOnly_setReg _ hx b)

theorem changesOnly_skipIf {W : Component → Prop} (s : State) (h : W .pc) (c : Bool) :
    ChangesOnly W s (if c then s.skipNext else s) := by
  cases c
  · exact ChangesOnly.refl W s
  · exact changesOnly_setPc s h _

/-- A raised error that is not of the abort class changes nothing but the result (R195). -/
theorem changesOnly_raise {W : Component → Prop} (s : State) (e : Result) (h : e.aborts = true → W .halted) :
    ChangesOnly W s { s with result := e, halted := s.halted || e.aborts } := by
  refine ⟨fun c hc => ?_, rfl, rfl⟩
  cases c with
  | halted =>
    have he : e.aborts = false := Bool.eq_false_of_not_eq_true (fun hh => hc (h hh))
    simp [he]
  | _ => rfl

/-! The call stack (R30). -/

theorem State.push_eq_none_iff (s : State) (w : Word) : s.push w = none ↔ s.sp.val = 16 := by
  have := s.sp.isLt
  unfold State.push
  split
  · simp; omega
  · simp; omega

/-- A push that succeeds writes the slot at SP and raises SP, and nothing else. -/
theorem State.push_eq_some (s : State) (w : Word) (h : s.sp.val < 16) :
    s.push w = some { s with stack := s.stack.set s.sp.val w h, sp := ⟨s.sp.val + 1, by omega⟩ } := by
  simp [State.push, h]

theorem State.pop_eq_none_iff (s : State) : s.pop = none ↔ s.sp.val = 0 := by
  unfold State.pop
  split
  · simp; omega
  · simp; omega

/-- A pop that succeeds reads the slot below SP and lowers SP, and nothing else (R31). -/
theorem State.pop_eq_some (s : State) (h : 0 < s.sp.val) :
    s.pop = some (s.stack[s.sp.val - 1]'(by omega), { s with sp := ⟨s.sp.val - 1, by omega⟩ }) := by
  simp [State.pop, h]

/-! The framebuffer (R35 to R37). -/

/-- A cell after a cell is written. -/
theorem Framebuffer.cell_setCell (f : Framebuffer) (px qx : Col) (py qy : Row) (b : Bool) :
    (f.setCell px py b).cell qx qy = if qx = px ∧ qy = py then b else f.cell qx qy := by
  unfold Framebuffer.cell Framebuffer.setCell
  by_cases hy : qy = py
  · subst hy
    by_cases hx : qx = px
    · subst hx; simp
    · have hx' : px.val ≠ qx.val := fun e => hx (Fin.ext e.symm)
      simp [hx, hx', Vector.getElem_set_ne]
  · have hy' : py.val ≠ qy.val := fun e => hy (Fin.ext e.symm)
    simp [hy, hy', Vector.getElem_set_ne]

@[simp] theorem Framebuffer.cell_clear (px : Col) (py : Row) : Framebuffer.clear.cell px py = false := by
  simp [Framebuffer.clear, Framebuffer.cell]

/-- Framebuffers with the same cells are equal. -/
theorem Framebuffer.ext_cell {f g : Framebuffer} (h : ∀ px py, f.cell px py = g.cell px py) : f = g := by
  apply Vector.ext
  intro j hj
  apply Vector.ext
  intro k hk
  exact h ⟨k, hk⟩ ⟨j, hj⟩

/-- XOR over a list without repeats inverts exactly the cells of the list (R165). -/
theorem Framebuffer.cell_xorPixels (l : List (Col × Row)) (hl : l.Nodup) (f : Framebuffer) (hit : Bool) (px : Col)
    (py : Row) :
    (f.xorPixels l hit).1.cell px py = (f.cell px py ^^ decide ((px, py) ∈ l)) := by
  induction l generalizing f hit with
  | nil => simp [Framebuffer.xorPixels]
  | cons p l ih =>
    obtain ⟨qx, qy⟩ := p
    rw [List.nodup_cons] at hl
    rw [Framebuffer.xorPixels, ih hl.2, Framebuffer.xorPixel, Framebuffer.cell_setCell]
    by_cases h : px = qx ∧ py = qy
    · obtain ⟨rfl, rfl⟩ := h
      simp [hl.1]
    · have h' : (px, py) ≠ (qx, qy) := fun e => h (Prod.mk.inj e)
      simp [h, h']

/-- The collision flag is the OR of the prior values of the cells of the list (R163). -/
theorem Framebuffer.hit_xorPixels (l : List (Col × Row)) (hl : l.Nodup) (f : Framebuffer) (hit : Bool) :
    (f.xorPixels l hit).2 = true ↔ hit = true ∨ ∃ p ∈ l, f.cell p.1 p.2 = true := by
  induction l generalizing f hit with
  | nil => simp [Framebuffer.xorPixels]
  | cons p l ih =>
    obtain ⟨qx, qy⟩ := p
    rw [List.nodup_cons] at hl
    rw [Framebuffer.xorPixels, ih hl.2]
    have hcell : ∀ q ∈ l, ((f.xorPixel qx qy).1).cell q.1 q.2 = f.cell q.1 q.2 := by
      intro q hq
      have hne : ¬ (q.1 = qx ∧ q.2 = qy) := fun e => hl.1 (by rwa [← e.1, ← e.2])
      rw [Framebuffer.xorPixel, Framebuffer.cell_setCell, if_neg hne]
    have hex : (∃ q ∈ l, ((f.xorPixel qx qy).1).cell q.1 q.2 = true) ↔ ∃ q ∈ l, f.cell q.1 q.2 = true :=
      ⟨fun ⟨q, hq, h⟩ => ⟨q, hq, (hcell q hq) ▸ h⟩, fun ⟨q, hq, h⟩ => ⟨q, hq, (hcell q hq).symm ▸ h⟩⟩
    rw [hex]
    simp [Framebuffer.xorPixel, or_assoc]

/-! The input latch (R176). -/

/-- The highest key is pressed and every higher one is not. -/
theorem State.highestKey_eq_some_iff (s : State) (k : Key) :
    s.highestKey = some k ↔ s.key[k] = true ∧ ∀ j : Key, k < j → s.key[j] = false := by
  have hs : keysDescending.Pairwise (fun a b => b < a) := by decide
  have hm : ∀ j : Key, j ∈ keysDescending := by decide
  constructor
  · intro h
    obtain ⟨hk, as, bs, hl, has⟩ := List.find?_eq_some_iff_append.mp h
    refine ⟨by simpa using hk, fun j hj => ?_⟩
    have hjm := hm j
    rw [hl] at hjm hs
    rcases List.mem_append.mp hjm with hja | hjb
    · simpa using has j hja
    · exfalso
      rcases List.mem_cons.mp hjb with rfl | hjb
      · exact lt_irrefl _ hj
      · have := (List.pairwise_cons.mp (List.pairwise_append.mp hs).2.1).1 j hjb
        exact lt_asymm this hj
  · rintro ⟨hk, hhigher⟩
    cases hf : s.highestKey with
    | none => exact absurd hk (by simpa using List.find?_eq_none.mp hf k (hm k))
    | some j =>
      obtain ⟨hj, as, bs, hl, has⟩ := List.find?_eq_some_iff_append.mp hf
      congr 1
      rcases lt_trichotomy j k with hlt | heq | hgt
      · exfalso
        have hkm := hm k
        rw [hl] at hkm hs
        rcases List.mem_append.mp hkm with hka | hkb
        · simpa [hk] using has k hka
        · rcases List.mem_cons.mp hkb with rfl | hkb
          · exact lt_irrefl _ hlt
          · exact lt_asymm ((List.pairwise_cons.mp (List.pairwise_append.mp hs).2.1).1 k hkb) hlt
      · exact heq
      · have := hhigher j hgt
        simp [this] at hj

/-- No key is found exactly if none is pressed. -/
theorem State.highestKey_eq_none_iff (s : State) : s.highestKey = none ↔ ∀ k : Key, s.key[k] = false := by
  have hm : ∀ j : Key, j ∈ keysDescending := by decide
  rw [State.highestKey, List.find?_eq_none]
  exact ⟨fun h k => by simpa using h k (hm k), fun h k _ => by simp [h k]⟩

end Sys2Proof.Machine
end

