-- ==== Sys2Proof/Laws/Operands.lean ====
section
/-! SUPPORT. The operand forms of Machine/Operands.lean and the flags of Machine/Flags.lean, as numbers. -/

namespace Sys2Proof.Machine

@[simp] theorem toNat_immAddr (nnn : Addr) : (immAddr nnn).toNat = nnn.toNat := by
  have := nnn.isLt
  simp only [immAddr, BitVec.toNat_setWidth]
  omega

@[simp] theorem toNat_immByte (b : Byte) : (immByte b).toNat = b.toNat := by
  have := b.isLt
  simp only [immByte, BitVec.toNat_setWidth]
  omega

theorem keyIndex_eq_some (b : Byte) (k : Key) (h : b.toNat = k.val) : keyIndex b = some k := by
  simp [keyIndex, h]

theorem keyIndex_eq_none (b : Byte) (h : 16 ≤ b.toNat) : keyIndex b = none := by
  simp [keyIndex, Nat.not_lt.mpr h]

@[simp] theorem State.effAddr_eq (s : State) (k : Nat) : s.effAddr k = s.i.toNat + k := rfl

/-- A block in bounds, or an empty one, passes the check (R57, R164). -/
theorem State.accessFault_eq_none (s : State) (len : Nat) (h : len = 0 ∨ s.i.toNat + len ≤ 0x1000) :
    s.accessFault len = none := by
  have : ¬ (0 < len ∧ 0x1000 < s.i.toNat + len) := by omega
  simp [State.accessFault, this]

/-- A block that reaches 0x1000 fails the check with the lowest address out of bounds (R196). -/
theorem State.accessFault_eq_some (s : State) (len : Nat) (hl : 0 < len) (h : 0x1000 < s.i.toNat + len) :
    s.accessFault len = some (BitVec.ofNat 17 (max s.i.toNat 0x1000)) := by
  simp [State.accessFault, hl, h]

/-- The block of registers stored by Fx55. -/
@[simp] theorem State.length_regBlock (s : State) (len : Nat) (h : len ≤ 16) : (s.regBlock len).length = len := by
  simp [State.regBlock, h]

theorem State.getElem_regBlock (s : State) (len k : Nat) (h : k < (s.regBlock len).length) (hk : k < 16) :
    (s.regBlock len)[k] = s.v[k] := by
  simp [State.regBlock]

/-- The registers after a block load (R145). -/
theorem getElem_loadBlock (m : Memory) (base len : Nat) (v : Vector Byte 16) (r : Nat) (hr : r < 16) :
    (loadBlock m base len v)[r] = if r < len then m.read (base + r) else v[r] := by
  induction len with
  | zero => simp [loadBlock]
  | succ len ih =>
    rw [loadBlock, Vector.getElem_setIfInBounds, ih]
    by_cases h : len = r
    · subst h; simp
    · by_cases h' : r < len
      · simp [h, h', Nat.lt_succ_of_lt h']
      · simp [h, h']; omega

/-- A sprite bit: column 0 is bit 7 (R161). -/
theorem spriteBit_eq (b : Byte) (c : Nat) (hc : c < 8) : spriteBit b c = b.getLsbD (7 - c) := by
  have hd : ∀ c : Fin 8, ((0x80 : Byte) >>> c.val) = BitVec.twoPow 8 (7 - c.val) := by decide
  have h := hd ⟨c, hc⟩
  simp only at h
  rw [spriteBit, h, BitVec.and_twoPow]
  have hne : BitVec.twoPow 8 (7 - c) ≠ 0#8 := by
    intro h0
    have := congrArg (fun z => BitVec.getLsbD z (7 - c)) h0
    have hlt : 7 - c < 8 := by omega
    simp [hlt] at this
  by_cases hb : b.getLsbD (7 - c) = true
  · simp [hb, hne]
  · simp [hb]

/-- The cells of a sprite are those it covers (R161, R162). -/
theorem State.mem_spriteCells (s : State) (x y : Reg) (n : Nat) (px : Col) (py : Row) :
    (px, py) ∈ s.spriteCells (s.reg x) (s.reg y) n ↔ s.SpriteCovers x y n px py := by
  simp only [State.spriteCells, List.mem_flatMap, List.mem_range, spriteRow, List.mem_map, List.mem_filter,
    State.SpriteCovers, Prod.mk.injEq, wrapCol, wrapRow, Fin.ext_iff, State.effAddr_eq]
  constructor
  · rintro ⟨r, hr, c, ⟨hc, hb⟩, hx, hy⟩
    exact ⟨r, c, hr, hc, by rwa [spriteBit_eq _ _ hc] at hb, hx, hy⟩
  · rintro ⟨r, c, hr, hc, hb, hx, hy⟩
    exact ⟨r, hr, c, ⟨hc, by rwa [spriteBit_eq _ _ hc]⟩, hx, hy⟩

/-- No two bits of a sprite of at most 32 rows hit the same cell (R165). -/
theorem State.nodup_spriteCells (s : State) (vx vy : Byte) (n : Nat) (hn : n ≤ 32) :
    (s.spriteCells vx vy n).Nodup := by
  unfold State.spriteCells
  rw [List.nodup_flatMap]
  constructor
  · intro r _
    apply List.Nodup.map_on _ (List.nodup_range.filter _)
    intro a ha b hb hab
    have ha' := List.mem_range.mp (List.mem_filter.mp ha).1
    have hb' := List.mem_range.mp (List.mem_filter.mp hb).1
    have h := congrArg Fin.val (Prod.mk.inj hab).1
    simp only [wrapCol] at h
    omega
  · apply List.Nodup.pairwise_of_forall_ne List.nodup_range
    intro r hr r' hr' hne p hp hp'
    have h1 := List.mem_range.mp hr
    have h2 := List.mem_range.mp hr'
    simp only [spriteRow, List.mem_map] at hp hp'
    obtain ⟨c, -, rfl⟩ := hp
    obtain ⟨c', -, h⟩ := hp'
    have h := congrArg Fin.val (Prod.mk.inj h).2
    simp only [wrapRow] at h
    omega

/-! Flags (R23). -/

@[simp] theorem toNat_flagByte (b : Bool) : (flagByte b).toNat = b.toNat := by cases b <;> rfl

theorem toNat_carryFlag (a b : Byte) : (carryFlag a b).toNat = (a.toNat + b.toNat) / 256 := by
  have := a.isLt
  have := b.isLt
  rw [carryFlag, toNat_flagByte]
  by_cases h : 255 < a.toNat + b.toNat
  · simp only [h, decide_true, Bool.toNat_true]; omega
  · simp only [h, decide_false, Bool.toNat_false]; omega

theorem toNat_greaterFlag (a b : Byte) : (greaterFlag a b).toNat = if b.toNat < a.toNat then 1 else 0 := by
  rw [greaterFlag, toNat_flagByte]
  by_cases h : b.toNat < a.toNat <;> simp [h]

theorem toNat_lowBitFlag (a : Byte) : (lowBitFlag a).toNat = a.toNat % 2 := by
  rw [lowBitFlag, BitVec.toNat_and]
  exact Nat.and_two_pow_sub_one_eq_mod a.toNat 1

theorem toNat_highBitFlag (a : Byte) : (highBitFlag a).toNat = a.toNat / 128 := by
  have ha := a.isLt
  have h : (highBitFlag a).toNat = (a.toNat &&& 128) / 2 ^ 7 := by
    rw [highBitFlag, BitVec.toNat_ushiftRight, BitVec.toNat_and, Nat.shiftRight_eq_div_pow]; rfl
  rw [h, Nat.and_div_two_pow, show 128 / 2 ^ 7 = 2 ^ 1 - 1 from rfl, Nat.and_two_pow_sub_one_eq_mod]
  omega

end Sys2Proof.Machine
end

