-- ==== Sys2Proof/Laws/Step.lean ====
section
/-! SUPPORT. The step: which command runs next, the outcomes of the step cycle one by one, and what an instruction can
answer. -/

namespace Sys2Proof.Machine

theorem State.fetchable_iff (s : State) : s.fetchable = true ↔ s.pc.toNat ≤ 0xFFE := by
  have h : Config.memSize = 0x1000 := rfl
  simp only [State.fetchable, State.fetchAddr, h, decide_eq_true_eq]
  omega

theorem State.fetchWord_eq (s : State) : s.fetchWord = s.wordAtPc := rfl

/-- With nothing scheduled the host issues a step (log 2). -/
theorem step_of_nil {s : State} (h : s.schedule = []) : step s = stepCycle false s := by
  unfold step runNextCommand
  split
  · rfl
  · rename_i hs; rw [h] at hs; cases hs

/-- Else the oldest command of the schedule. -/
theorem step_of_cons {s : State} {c : Command} {rest : List Command} (h : s.schedule = c :: rest) :
    step s = runCommand c { s with schedule := rest } := by
  unfold step runNextCommand
  split
  · rename_i hs; rw [h] at hs; cases hs
  · rename_i hs; rw [h] at hs; cases hs; rfl

/-- When the next command is a step, the step cycle runs with the commands after it left. -/
theorem step_of_nextIsStep {s : State} {rest : List Command} (h : s.NextIsStep rest) :
    ∃ l, step s = stepCycle l { s with schedule := rest } := by
  rcases h with ⟨hs, rfl⟩ | ⟨l, hs⟩
  · exact ⟨false, by rw [step_of_nil hs, ← hs]⟩
  · exact ⟨l, step_of_cons hs⟩

/-- R91. -/
theorem stepCycle_of_halted (l : Bool) {s : State} (h : s.halted = true) : stepCycle l s = raise .halted s := by
  simp [stepCycle, h]

/-- R194. -/
theorem stepCycle_of_unfetchable (l : Bool) {s : State} (h : s.halted = false) (hp : 0xFFF ≤ s.pc.toNat) :
    stepCycle l s = raise (.pcOutOfBounds s.pc) s := by
  have hf : ¬ s.fetchable = true := by rw [State.fetchable_iff]; omega
  rw [stepCycle, if_neg (by simp [h]), if_neg hf]

/-- R90, R92. -/
theorem stepCycle_of_decoded (l : Bool) {s : State} {i : Instr} (h : s.halted = false) (hp : s.pc.toNat ≤ 0xFFE)
    (hd : decodeWord s.wordAtPc = .ok i) : stepCycle l s = exec i s.advancePc := by
  have hf : s.fetchable = true := by rw [State.fetchable_iff]; omega
  rw [stepCycle, if_neg (by simp [h]), if_pos hf, State.fetchWord_eq, hd]

/-- R192. -/
theorem stepCycle_of_unknown (l : Bool) {s : State} {e : DecodeError} (h : s.halted = false)
    (hp : s.pc.toNat ≤ 0xFFE) (hd : decodeWord s.wordAtPc = .error e) :
    stepCycle l s = raise (.unknownOpcode s.wordAtPc) s.advancePc := by
  have hf : s.fetchable = true := by rw [State.fetchable_iff]; omega
  rw [stepCycle, if_neg (by simp [h]), if_pos hf, State.fetchWord_eq, hd]

/-- What the step cycle can answer: one of the four cases of R95. -/
theorem stepCycle_cases (l : Bool) (s : State) :
    (s.halted = true ∧ stepCycle l s = raise .halted s) ∨
    (s.halted = false ∧ 0xFFF ≤ s.pc.toNat ∧ stepCycle l s = raise (.pcOutOfBounds s.pc) s) ∨
    (s.halted = false ∧ s.pc.toNat ≤ 0xFFE ∧
      stepCycle l s = raise (.unknownOpcode s.wordAtPc) s.advancePc) ∨
    (s.halted = false ∧ s.pc.toNat ≤ 0xFFE ∧
      ∃ i, decodeWord s.wordAtPc = .ok i ∧ stepCycle l s = exec i s.advancePc) := by
  rcases Bool.eq_false_or_eq_true s.halted with h | h
  · exact .inl ⟨h, stepCycle_of_halted l h⟩
  · rcases Nat.lt_or_ge s.pc.toNat 0xFFF with hp | hp
    · have hp' : s.pc.toNat ≤ 0xFFE := by omega
      cases hd : decodeWord s.wordAtPc with
      | error e => exact .inr (.inr (.inl ⟨h, hp', stepCycle_of_unknown l h hp' hd⟩))
      | ok i => exact .inr (.inr (.inr ⟨h, hp', i, rfl, stepCycle_of_decoded l h hp' hd⟩))
    · exact .inr (.inl ⟨h, hp, stepCycle_of_unfetchable l h hp⟩)

/-- What a meaning can answer: a state with the result Ok that keeps the latch, the schedule and `halted`, or the state
it started from with an error raised (R94, R95). -/
inductive Answers (s : State) : Answer → Prop where
  | completes (t : State) (key : t.key = s.key) (schedule : t.schedule = s.schedule) (halted : t.halted = s.halted) :
      Answers s (finish t)
  | raises (e : Result) (h : e ≠ .ok) : Answers s (raise e s)

theorem answers_skipIf (s : State) (c : Bool) : Answers s (skipIf c s) := by
  cases c
  · exact .completes s rfl rfl rfl
  · exact .completes s.skipNext rfl rfl rfl

theorem answers_execRet (s : State) : Answers s (execRet s) := by
  unfold execRet
  by_cases h : 0 < s.sp.val
  · rw [State.pop_eq_some s h]; exact .completes _ rfl rfl rfl
  · rw [(State.pop_eq_none_iff s).mpr (by omega)]; exact .raises _ (by simp)

theorem answers_execCall (nnn : Addr) (s : State) : Answers s (execCall nnn s) := by
  unfold execCall
  by_cases h : s.sp.val < 16
  · rw [State.push_eq_some s _ h]; exact .completes _ rfl rfl rfl
  · rw [(State.push_eq_none_iff s _).mpr (by omega)]; exact .raises _ (by simp)

theorem answers_execLdBcd (x : Reg) (s : State) : Answers s (execLdBcd x s) := by
  unfold execLdBcd
  split
  · exact .raises _ (by simp)
  · exact .completes _ rfl rfl rfl

theorem answers_execStoreRegs (x : Reg) (s : State) : Answers s (execStoreRegs x s) := by
  unfold execStoreRegs
  split
  · exact .raises _ (by simp)
  · exact .completes _ rfl rfl rfl

theorem answers_execLoadRegs (x : Reg) (s : State) : Answers s (execLoadRegs x s) := by
  unfold execLoadRegs
  split
  · exact .raises _ (by simp)
  · exact .completes _ rfl rfl rfl

theorem answers_execDrw (x y : Reg) (n : Nat) (s : State) : Answers s (execDrw x y n s) := by
  unfold execDrw
  split
  · exact .raises _ (by simp)
  · exact .completes _ rfl rfl rfl

theorem answers_execSkp (x : Reg) (s : State) : Answers s (execSkp x s) := by
  unfold execSkp
  split
  · exact answers_skipIf _ _
  · exact .raises _ (by simp)

theorem answers_execSknp (x : Reg) (s : State) : Answers s (execSknp x s) := by
  unfold execSknp
  split
  · exact answers_skipIf _ _
  · exact .raises _ (by simp)

theorem answers_execLdVxKey (x : Reg) (s : State) : Answers s (execLdVxKey x s) := by
  unfold execLdVxKey
  split
  · exact .completes _ rfl rfl rfl
  · exact .completes _ rfl rfl rfl

/-- What any instruction can answer (R94). -/
theorem answers_exec (i : Instr) (s : State) : Answers s (exec i s) := by
  cases i with
  | ret => exact answers_execRet s
  | call nnn => exact answers_execCall nnn s
  | seByte x nn => exact answers_skipIf s _
  | sneByte x nn => exact answers_skipIf s _
  | seReg x y => exact answers_skipIf s _
  | sneReg x y => exact answers_skipIf s _
  | drw x y n => exact answers_execDrw x y n s
  | skp x => exact answers_execSkp x s
  | sknp x => exact answers_execSknp x s
  | ldVxKey x => exact answers_execLdVxKey x s
  | ldBcd x => exact answers_execLdBcd x s
  | storeRegs x => exact answers_execStoreRegs x s
  | loadRegs x => exact answers_execLoadRegs x s
  | _ => exact .completes _ rfl rfl rfl

/-- One command of a run of any machine, then the rest. -/
theorem core_run_succ (M : Host.Core) (n : Nat) (s : M.State) :
    M.run (n + 1) s = (match M.step s with
      | .next s' => M.run n s'
      | .fault r => .fault r
      | .refused r => .refused r) := rfl

/-- The model's own run is the host's run of the machine. -/
theorem run_eq_core_run (n : Nat) (s : State) : run n s = Host.Core.run Sys2Proof.core n s := by
  induction n generalizing s with
  | zero => rfl
  | succ n ih =>
    refine Eq.trans ?_ (core_run_succ Sys2Proof.core n s).symm
    rw [run]
    generalize hr : Sys2Proof.core.step s = o
    have ho : step s = o := hr
    rw [ho]
    cases o with
    | next t => exact ih t
    | fault r => rfl
    | refused r => rfl

end Sys2Proof.Machine
end

