-- ==== Sys2Proof/Laws/Exec.lean ====
section
/-! SUPPORT. What the instructions that can raise an error answer, one equation for each outcome, and the host commands:
the provers cite these instead of unfolding a meaning. -/

namespace Sys2Proof.Machine

variable (s : State)

/-! Subroutines. -/

/-- R101. -/
theorem execRet_of_pos (h : 0 < s.sp.val) :
    execRet s = finish { s with
      sp := ⟨s.sp.val - 1, by omega⟩
      pc := s.stack[s.sp.val - 1]'(by omega) } := by
  simp only [execRet, State.pop_eq_some s h]; rfl

/-- R193. -/
theorem execRet_of_zero (h : s.sp.val = 0) : execRet s = raise (.stackUnderflow 0x00EE) s := by
  simp only [execRet, (State.pop_eq_none_iff s).mpr h]; rfl

/-- R103. -/
theorem execCall_of_lt (nnn : Addr) (h : s.sp.val < 16) :
    execCall nnn s = finish { s with
      stack := s.stack.set s.sp.val s.pc h
      sp := ⟨s.sp.val + 1, by omega⟩
      pc := immAddr nnn } := by
  simp only [execCall, State.push_eq_some s _ h]; rfl

/-- R193. -/
theorem execCall_of_full (nnn : Addr) (h : s.sp.val = 16) :
    execCall nnn s = raise (.stackOverflow (encode (.call nnn))) s := by
  simp only [execCall, (State.push_eq_none_iff s _).mpr h]

/-! Accesses through I (R57): in bounds, and out of bounds. -/

theorem execLdBcd_of_le (x : Reg) (h : s.i.toNat + 3 ≤ 0x1000) :
    execLdBcd x s = finish (s.setMem (s.mem.writeBytes s.i.toNat (bcdDigits (s.reg x)))) := by
  simp only [execLdBcd, State.accessFault_eq_none s 3 (.inr h)]; rfl

theorem execLdBcd_of_gt (x : Reg) (h : 0x1000 < s.i.toNat + 3) :
    execLdBcd x s =
      raise (.memoryOutOfBounds (encode (.ldBcd x)) (BitVec.ofNat 17 (max s.i.toNat 0x1000))) s := by
  simp only [execLdBcd, State.accessFault_eq_some s 3 (by omega) h]

theorem execStoreRegs_of_le (x : Reg) (h : s.i.toNat + (x.val + 1) ≤ 0x1000) :
    execStoreRegs x s = finish (s.setMem (s.mem.writeBytes s.i.toNat (s.regBlock (x.val + 1)))) := by
  simp only [execStoreRegs, State.accessFault_eq_none s _ (.inr h)]; rfl

theorem execStoreRegs_of_gt (x : Reg) (h : 0x1000 < s.i.toNat + (x.val + 1)) :
    execStoreRegs x s =
      raise (.memoryOutOfBounds (encode (.storeRegs x)) (BitVec.ofNat 17 (max s.i.toNat 0x1000))) s := by
  simp only [execStoreRegs, State.accessFault_eq_some s _ (Nat.succ_pos _) h]

theorem execLoadRegs_of_le (x : Reg) (h : s.i.toNat + (x.val + 1) ≤ 0x1000) :
    execLoadRegs x s = finish { s with v := loadBlock s.mem s.i.toNat (x.val + 1) s.v } := by
  simp only [execLoadRegs, State.accessFault_eq_none s _ (.inr h)]; rfl

theorem execLoadRegs_of_gt (x : Reg) (h : 0x1000 < s.i.toNat + (x.val + 1)) :
    execLoadRegs x s =
      raise (.memoryOutOfBounds (encode (.loadRegs x)) (BitVec.ofNat 17 (max s.i.toNat 0x1000))) s := by
  simp only [execLoadRegs, State.accessFault_eq_some s _ (Nat.succ_pos _) h]

theorem execDrw_of_le (x y : Reg) (n : Nat) (h : n = 0 ∨ s.i.toNat + n ≤ 0x1000) :
    execDrw x y n s =
      finish ((s.setFb (s.fb.xorPixels (s.spriteCells (s.reg x) (s.reg y) n) false).1).setReg Reg.vf
        (flagByte (s.fb.xorPixels (s.spriteCells (s.reg x) (s.reg y) n) false).2)) := by
  simp only [execDrw, State.accessFault_eq_none s n h]

theorem execDrw_of_gt (x y : Reg) (n : Nat) (hn : 0 < n) (h : 0x1000 < s.i.toNat + n) :
    execDrw x y n s =
      raise (.memoryOutOfBounds (encode (.drw x y n)) (BitVec.ofNat 17 (max s.i.toNat 0x1000))) s := by
  simp only [execDrw, State.accessFault_eq_some s n hn h]

/-! Keys. -/

theorem execSkp_of_key (x : Reg) (k : Key) (h : (s.reg x).toNat = k.val) : execSkp x s = skipIf s.key[k] s := by
  simp only [execSkp, keyIndex_eq_some _ k h]

theorem execSknp_of_key (x : Reg) (k : Key) (h : (s.reg x).toNat = k.val) : execSknp x s = skipIf (! s.key[k]) s := by
  simp only [execSknp, keyIndex_eq_some _ k h]

theorem execSkp_of_ge (x : Reg) (h : 16 ≤ (s.reg x).toNat) :
    execSkp x s = raise (.keyIndexOutOfRange (encode (.skp x)) (s.reg x)) s := by
  simp only [execSkp, keyIndex_eq_none _ h]

theorem execSknp_of_ge (x : Reg) (h : 16 ≤ (s.reg x).toNat) :
    execSknp x s = raise (.keyIndexOutOfRange (encode (.sknp x)) (s.reg x)) s := by
  simp only [execSknp, keyIndex_eq_none _ h]

/-! Host commands. -/

/-- R205: the truncated subtraction is the stop at 0. -/
@[simp] theorem toNat_countDown (b : Byte) : (countDown b).toNat = b.toNat - 1 := by
  unfold countDown
  split
  · rename_i h; subst h; rfl
  · rename_i h
    have h0 : b.toNat ≠ 0 := fun e => h (BitVec.eq_of_toNat_eq e)
    have := b.isLt
    rw [BitVec.toNat_sub]
    simp
    omega

/-- R224. -/
theorem State.afterLoad_of_le (bytes : List Byte) (h : bytes.length ≤ 3584) :
    s.afterLoad bytes = (s.setMem (s.mem.writeBytes 0x200 bytes)).setResult .ok := if_pos h

/-- R225. -/
theorem State.afterLoad_of_gt (bytes : List Byte) (h : 3584 < bytes.length) :
    s.afterLoad bytes = s.setResult (.programTooLarge bytes.length) := if_neg (Nat.not_le.mpr h)

/-- R46. -/
theorem State.afterSetKey_of_lt (k : Nat) (p : Bool) (h : k < 16) :
    s.afterSetKey k p = { s with key := s.key.set k p h, result := .ok } := dif_pos h

/-- R47. -/
theorem State.afterSetKey_of_ge (k : Nat) (p : Bool) (h : 16 ≤ k) :
    s.afterSetKey k p = s.setResult (.badArgument (.keyIndex k)) := dif_neg (Nat.not_lt.mpr h)

/-- R44. -/
theorem State.afterIsSet_of_lt (px py : Nat) (hx : px < 64) (hy : py < 32) :
    s.afterIsSet px py = s.setResult (.pixel (s.fb.cell ⟨px, hx⟩ ⟨py, hy⟩)) := dif_pos ⟨hx, hy⟩

/-- R47. -/
theorem State.afterIsSet_of_ge (px py : Nat) (h : 64 ≤ px ∨ 32 ≤ py) :
    s.afterIsSet px py = s.setResult (.badArgument (.pixelAt px py)) := dif_neg (by omega)

end Sys2Proof.Machine
end

