-- ==== Sys2Proof/Laws/PerInstr.lean ====
section
/-! SUPPORT. Statements about every instruction as syntax, one lemma per constructor of Instr. RoundTrip: the word of a
well-formed instruction decodes to that instruction (R76, R77). -/

namespace Sys2Proof.Laws

/-- The word of a well-formed instruction decodes to it. -/
def RoundTrip.Statement (i : Instr) : Prop := i.wellFormed = true → decodeWord (encode i) = .ok i

/-! One lemma per format (R73): the k-th row of the table makes the instruction from its fields. -/

theorem decode_formatNNN (k : Nat) (hk : k < opcodeRows.length) (g : Nat) (hg : g < 16) (f : Addr → Instr)
    (hrow : opcodeRows[k] = ⟨BitVec.ofNat 16 (g * 4096), 0xF000, fun op => f (fieldNNN op)⟩) (nnn : Addr) :
    decodeWord (formatNNN g nnn) = .ok (f nnn) := by
  have hw := toNat_formatNNN g hg nnn
  have hn := nnn.isLt
  have ha : opcodeRows[k].accepts (formatNNN g nnn) = true := by
    rw [hrow, OpcodeRow.accepts_iff, and_F000_eq, hw, BitVec.toNat_ofNat]
    omega
  rw [decodeWord_of_mem (List.getElem_mem hk) ha, hrow]
  simp only [fieldNNN_eq (formatNNN g nnn) nnn (by omega)]

theorem decode_formatXNN (k : Nat) (hk : k < opcodeRows.length) (g : Nat) (hg : g < 16) (f : Reg → Byte → Instr)
    (hrow : opcodeRows[k] = ⟨BitVec.ofNat 16 (g * 4096), 0xF000, fun op => f (fieldX op) (fieldNN op)⟩)
    (x : Reg) (nn : Byte) : decodeWord (formatXNN g x nn) = .ok (f x nn) := by
  have hw := toNat_formatXNN g hg x nn
  have hn := nn.isLt
  have hx := x.isLt
  have ha : opcodeRows[k].accepts (formatXNN g x nn) = true := by
    rw [hrow, OpcodeRow.accepts_iff, and_F000_eq, hw, BitVec.toNat_ofNat]
    omega
  rw [decodeWord_of_mem (List.getElem_mem hk) ha, hrow]
  simp only [fieldX_eq (formatXNN g x nn) x (by omega), fieldNN_eq (formatXNN g x nn) nn (by omega)]

theorem decode_formatXYK (k : Nat) (hk : k < opcodeRows.length) (g n : Nat) (hg : g < 16) (hn : n < 16)
    (f : Reg → Reg → Instr)
    (hrow : opcodeRows[k] = ⟨BitVec.ofNat 16 (g * 4096 + n), 0xF00F, fun op => f (fieldX op) (fieldY op)⟩)
    (x y : Reg) : decodeWord (formatXYN g x y n) = .ok (f x y) := by
  have hw := toNat_formatXYN g hg x y n hn
  have hx := x.isLt
  have hy := y.isLt
  have ha : opcodeRows[k].accepts (formatXYN g x y n) = true := by
    rw [hrow, OpcodeRow.accepts_iff, and_F00F_eq, hw, BitVec.toNat_ofNat]
    omega
  rw [decodeWord_of_mem (List.getElem_mem hk) ha, hrow]
  simp only [fieldX_eq (formatXYN g x y n) x (by omega), fieldY_eq (formatXYN g x y n) y (by omega)]

theorem decode_formatXYN (k : Nat) (hk : k < opcodeRows.length) (g n : Nat) (hg : g < 16) (hn : n < 16)
    (f : Reg → Reg → Nat → Instr)
    (hrow : opcodeRows[k] = ⟨BitVec.ofNat 16 (g * 4096), 0xF000, fun op => f (fieldX op) (fieldY op) (fieldN op)⟩)
    (x y : Reg) : decodeWord (formatXYN g x y n) = .ok (f x y n) := by
  have hw := toNat_formatXYN g hg x y n hn
  have hx := x.isLt
  have hy := y.isLt
  have ha : opcodeRows[k].accepts (formatXYN g x y n) = true := by
    rw [hrow, OpcodeRow.accepts_iff, and_F000_eq, hw, BitVec.toNat_ofNat]
    omega
  have hfn : fieldN (formatXYN g x y n) = n := by rw [fieldN, hw]; omega
  rw [decodeWord_of_mem (List.getElem_mem hk) ha, hrow]
  simp only [fieldX_eq (formatXYN g x y n) x (by omega), fieldY_eq (formatXYN g x y n) y (by omega), hfn]

theorem decode_formatXKK (k : Nat) (hk : k < opcodeRows.length) (g kk : Nat) (hg : g < 16) (hkk : kk < 256)
    (f : Reg → Instr)
    (hrow : opcodeRows[k] = ⟨BitVec.ofNat 16 (g * 4096 + kk), 0xF0FF, fun op => f (fieldX op)⟩) (x : Reg) :
    decodeWord (formatXKK g x kk) = .ok (f x) := by
  have hw := toNat_formatXKK g hg x kk hkk
  have hx := x.isLt
  have ha : opcodeRows[k].accepts (formatXKK g x kk) = true := by
    rw [hrow, OpcodeRow.accepts_iff, and_F0FF_eq, hw, BitVec.toNat_ofNat]
    omega
  rw [decodeWord_of_mem (List.getElem_mem hk) ha, hrow]
  simp only [fieldX_eq (formatXKK g x kk) x (by omega)]

theorem RoundTrip.cls : RoundTrip.Statement .cls := fun _ => rfl
theorem RoundTrip.ret : RoundTrip.Statement .ret := fun _ => rfl
theorem RoundTrip.jp (nnn : Addr) : RoundTrip.Statement (.jp nnn) :=
  fun _ => decode_formatNNN 2 (by decide) 1 (by decide) .jp rfl nnn
theorem RoundTrip.call (nnn : Addr) : RoundTrip.Statement (.call nnn) :=
  fun _ => decode_formatNNN 3 (by decide) 2 (by decide) .call rfl nnn
theorem RoundTrip.seByte (x : Reg) (nn : Byte) : RoundTrip.Statement (.seByte x nn) :=
  fun _ => decode_formatXNN 4 (by decide) 3 (by decide) .seByte rfl x nn
theorem RoundTrip.sneByte (x : Reg) (nn : Byte) : RoundTrip.Statement (.sneByte x nn) :=
  fun _ => decode_formatXNN 5 (by decide) 4 (by decide) .sneByte rfl x nn
theorem RoundTrip.seReg (x y : Reg) : RoundTrip.Statement (.seReg x y) :=
  fun _ => decode_formatXYK 6 (by decide) 5 0 (by decide) (by decide) .seReg rfl x y
theorem RoundTrip.ldByte (x : Reg) (nn : Byte) : RoundTrip.Statement (.ldByte x nn) :=
  fun _ => decode_formatXNN 7 (by decide) 6 (by decide) .ldByte rfl x nn
theorem RoundTrip.addByte (x : Reg) (nn : Byte) : RoundTrip.Statement (.addByte x nn) :=
  fun _ => decode_formatXNN 8 (by decide) 7 (by decide) .addByte rfl x nn
theorem RoundTrip.ldReg (x y : Reg) : RoundTrip.Statement (.ldReg x y) :=
  fun _ => decode_formatXYK 9 (by decide) 8 0 (by decide) (by decide) .ldReg rfl x y
theorem RoundTrip.orReg (x y : Reg) : RoundTrip.Statement (.orReg x y) :=
  fun _ => decode_formatXYK 10 (by decide) 8 1 (by decide) (by decide) .orReg rfl x y
theorem RoundTrip.andReg (x y : Reg) : RoundTrip.Statement (.andReg x y) :=
  fun _ => decode_formatXYK 11 (by decide) 8 2 (by decide) (by decide) .andReg rfl x y
theorem RoundTrip.xorReg (x y : Reg) : RoundTrip.Statement (.xorReg x y) :=
  fun _ => decode_formatXYK 12 (by decide) 8 3 (by decide) (by decide) .xorReg rfl x y
theorem RoundTrip.addReg (x y : Reg) : RoundTrip.Statement (.addReg x y) :=
  fun _ => decode_formatXYK 13 (by decide) 8 4 (by decide) (by decide) .addReg rfl x y
theorem RoundTrip.subReg (x y : Reg) : RoundTrip.Statement (.subReg x y) :=
  fun _ => decode_formatXYK 14 (by decide) 8 5 (by decide) (by decide) .subReg rfl x y
theorem RoundTrip.shr (x y : Reg) : RoundTrip.Statement (.shr x y) :=
  fun _ => decode_formatXYK 15 (by decide) 8 6 (by decide) (by decide) .shr rfl x y
theorem RoundTrip.subnReg (x y : Reg) : RoundTrip.Statement (.subnReg x y) :=
  fun _ => decode_formatXYK 16 (by decide) 8 7 (by decide) (by decide) .subnReg rfl x y
theorem RoundTrip.shl (x y : Reg) : RoundTrip.Statement (.shl x y) :=
  fun _ => decode_formatXYK 17 (by decide) 8 14 (by decide) (by decide) .shl rfl x y
theorem RoundTrip.sneReg (x y : Reg) : RoundTrip.Statement (.sneReg x y) :=
  fun _ => decode_formatXYK 18 (by decide) 9 0 (by decide) (by decide) .sneReg rfl x y
theorem RoundTrip.ldI (nnn : Addr) : RoundTrip.Statement (.ldI nnn) :=
  fun _ => decode_formatNNN 19 (by decide) 10 (by decide) .ldI rfl nnn
theorem RoundTrip.jpV0 (nnn : Addr) : RoundTrip.Statement (.jpV0 nnn) :=
  fun _ => decode_formatNNN 20 (by decide) 11 (by decide) .jpV0 rfl nnn
theorem RoundTrip.rnd (x : Reg) (nn : Byte) : RoundTrip.Statement (.rnd x nn) :=
  fun _ => decode_formatXNN 21 (by decide) 12 (by decide) .rnd rfl x nn
theorem RoundTrip.drw (x y : Reg) (n : Nat) : RoundTrip.Statement (.drw x y n) := by
  intro h
  have hn : n < 16 := by simpa [Instr.wellFormed] using h
  exact decode_formatXYN 22 (by decide) 13 n (by decide) hn .drw rfl x y
theorem RoundTrip.skp (x : Reg) : RoundTrip.Statement (.skp x) :=
  fun _ => decode_formatXKK 23 (by decide) 14 0x9e (by decide) (by decide) .skp rfl x
theorem RoundTrip.sknp (x : Reg) : RoundTrip.Statement (.sknp x) :=
  fun _ => decode_formatXKK 24 (by decide) 14 0xa1 (by decide) (by decide) .sknp rfl x
theorem RoundTrip.ldVxDt (x : Reg) : RoundTrip.Statement (.ldVxDt x) :=
  fun _ => decode_formatXKK 25 (by decide) 15 0x7 (by decide) (by decide) .ldVxDt rfl x
theorem RoundTrip.ldVxKey (x : Reg) : RoundTrip.Statement (.ldVxKey x) :=
  fun _ => decode_formatXKK 26 (by decide) 15 0xa (by decide) (by decide) .ldVxKey rfl x
theorem RoundTrip.ldDtVx (x : Reg) : RoundTrip.Statement (.ldDtVx x) :=
  fun _ => decode_formatXKK 27 (by decide) 15 0x15 (by decide) (by decide) .ldDtVx rfl x
theorem RoundTrip.ldStVx (x : Reg) : RoundTrip.Statement (.ldStVx x) :=
  fun _ => decode_formatXKK 28 (by decide) 15 0x18 (by decide) (by decide) .ldStVx rfl x
theorem RoundTrip.addI (x : Reg) : RoundTrip.Statement (.addI x) :=
  fun _ => decode_formatXKK 29 (by decide) 15 0x1e (by decide) (by decide) .addI rfl x
theorem RoundTrip.ldFont (x : Reg) : RoundTrip.Statement (.ldFont x) :=
  fun _ => decode_formatXKK 30 (by decide) 15 0x29 (by decide) (by decide) .ldFont rfl x
theorem RoundTrip.ldBcd (x : Reg) : RoundTrip.Statement (.ldBcd x) :=
  fun _ => decode_formatXKK 31 (by decide) 15 0x33 (by decide) (by decide) .ldBcd rfl x
theorem RoundTrip.storeRegs (x : Reg) : RoundTrip.Statement (.storeRegs x) :=
  fun _ => decode_formatXKK 32 (by decide) 15 0x55 (by decide) (by decide) .storeRegs rfl x
theorem RoundTrip.loadRegs (x : Reg) : RoundTrip.Statement (.loadRegs x) :=
  fun _ => decode_formatXKK 33 (by decide) 15 0x65 (by decide) (by decide) .loadRegs rfl x

end Sys2Proof.Laws
end

