-- ==== Sys2Proof/Tests/Slice0.lean ====
section
/-! SUPPORT. Tests. Every expected value is the spec's: a test's id (S7, A12, M14, ...) is a row of 95_test_vectors.md, W<n>
one of its worked examples, and a rule number an example or a table of that rule. After them the witnesses: concrete
inputs that meet the hypotheses of the statements, at the boundary values of their clauses. -/

namespace Sys2Proof.Tests

open Sys2Proof Sys2Proof.Machine

/-- The state a command leaves (the machine never faults or refuses). -/
def stateOf (s : State) : Answer → State
  | .next t => t
  | .fault _ => s
  | .refused _ => s

/-- The state after the word `w` has run at PC, from `s`. -/
def ran (s : State) (w : Nat) : State := stateOf s (step (s.withFetchWord 16 w))

/-- The state after one host command. -/
def told (s : State) (c : Command) : State := stateOf s (runCommand c s)

/-- Reset with two registers set. -/
def regs (x : Reg) (a : Byte) (y : Reg) (b : Byte) : State := (State.reset.setReg x a).setReg y b

/-- Reset with I, and bytes stored from I on. -/
def atI (i : Word) (bytes : List Byte) (s : State := State.reset) : State :=
  (s.setIndex i).setMem (s.mem.writeBytes i.toNat bytes)

/-- A stack of `n` used slots, all holding `w`. -/
def stacked (n : Fin 17) (w : Word) : State := { State.reset with sp := n, stack := Vector.replicate 16 w }

/-- Reset with a list of keys pressed. -/
def pressed (keys : List Nat) (s : State := State.reset) : State :=
  { s with key := Vector.ofFn (fun k => decide (k.val ∈ keys)) }

/-! ## WellFormed (R72) -/

theorem test_wellFormed_refuses_height_16 : Instr.wellFormed (.drw 0 0 16) = false := by decide
theorem test_wellFormed_accepts_height_15 : Instr.wellFormed (.drw 0 0 15) = true := by decide

/-! ## Decoding: a word of every row, written out from R77's patterns and R71's fields -/

theorem test_decode_control :
    decodeWord 0x00E0 = .ok .cls ∧ decodeWord 0x00EE = .ok .ret ∧ decodeWord 0x1FED = .ok (.jp 0xFED) ∧
    decodeWord 0x2345 = .ok (.call 0x345) ∧ decodeWord 0x3A42 = .ok (.seByte 10 0x42) ∧
    decodeWord 0x4F01 = .ok (.sneByte 15 0x01) ∧ decodeWord 0x5120 = .ok (.seReg 1 2) ∧
    decodeWord 0x9120 = .ok (.sneReg 1 2) ∧ decodeWord 0xB300 = .ok (.jpV0 0x300) := by decide

theorem test_decode_alu_immediate :
    decodeWord 0x6A2F = .ok (.ldByte 10 0x2F) ∧ decodeWord 0x71FF = .ok (.addByte 1 0xFF) ∧
    decodeWord 0xC30F = .ok (.rnd 3 0x0F) := by decide

theorem test_decode_alu_register :
    decodeWord 0x8120 = .ok (.ldReg 1 2) ∧ decodeWord 0x8121 = .ok (.orReg 1 2) ∧
    decodeWord 0x8122 = .ok (.andReg 1 2) ∧ decodeWord 0x8123 = .ok (.xorReg 1 2) ∧
    decodeWord 0x8124 = .ok (.addReg 1 2) ∧ decodeWord 0x8125 = .ok (.subReg 1 2) ∧
    decodeWord 0x8126 = .ok (.shr 1 2) ∧ decodeWord 0x8127 = .ok (.subnReg 1 2) ∧
    decodeWord 0x812E = .ok (.shl 1 2) := by decide

theorem test_decode_index_display :
    decodeWord 0xA2F0 = .ok (.ldI 0x2F0) ∧ decodeWord 0xF21E = .ok (.addI 2) ∧ decodeWord 0xF029 = .ok (.ldFont 0) ∧
    decodeWord 0xF133 = .ok (.ldBcd 1) ∧ decodeWord 0xFF55 = .ok (.storeRegs 15) ∧
    decodeWord 0xFF65 = .ok (.loadRegs 15) ∧ decodeWord 0xDAB5 = .ok (.drw 10 11 5) := by decide

theorem test_decode_keys_timers :
    decodeWord 0xE19E = .ok (.skp 1) ∧ decodeWord 0xE4A1 = .ok (.sknp 4) ∧ decodeWord 0xF507 = .ok (.ldVxDt 5) ∧
    decodeWord 0xF30A = .ok (.ldVxKey 3) ∧ decodeWord 0xF115 = .ok (.ldDtVx 1) ∧
    decodeWord 0xF118 = .ok (.ldStVx 1) := by decide

/-- S7 to S12. -/
theorem test_decode_rejects :
    decodeWord 0x0120 = .error (.unknownOpcode 0x0120) ∧ decodeWord 0x00E1 = .error (.unknownOpcode 0x00E1) ∧
    decodeWord 0x0FFF = .error (.unknownOpcode 0x0FFF) ∧ decodeWord 0x5121 = .error (.unknownOpcode 0x5121) ∧
    decodeWord 0x9AB1 = .error (.unknownOpcode 0x9AB1) ∧ decodeWord 0xE10E = .error (.unknownOpcode 0xE10E) := by decide

/-- S13, S14. -/
theorem test_decode_rejects_secondary :
    decodeWord 0x8008 = .error (.unknownOpcode 0x8008) ∧ decodeWord 0x800F = .error (.unknownOpcode 0x800F) ∧
    decodeWord 0xF000 = .error (.unknownOpcode 0xF000) ∧ decodeWord 0xF0FF = .error (.unknownOpcode 0xF0FF) ∧
    decodeWord 0xF108 = .error (.unknownOpcode 0xF108) := by decide

/-- R55, R70: the first byte is the high byte, and the bytes after the word are left. -/
theorem test_decode_bytes : decode [0x12, 0x34, 0x56] = .ok (.jp 0x234, [0x56]) := by decide

/-- R70. -/
theorem test_decode_truncated : decode [0x12] = .error .truncated := by decide

/-- R77 for the host's numbering of the table's bits. -/
theorem test_decodeTableWord : decodeTableWord 16 0xD125 = some (.drw 1 2 5) := by decide

/-- R73, R77. -/
theorem test_encode : encode (.drw 10 11 5) = 0xDAB5 ∧ encodeBytes (.jp 0x234) = [0x12, 0x34] := by decide

/-! ## The step cycle -/

/-- S1 (R91). -/
theorem test_step_halted :
    step { State.reset with halted := true } = .next { State.reset with halted := true, result := .halted } := rfl

/-- S2 (R58). -/
theorem test_step_unfetchable :
    step (State.reset.setPc 0xFFF) = .next ((State.reset.setPc 0xFFF).setResult (.pcOutOfBounds 0xFFF)) := rfl

/-- S4. -/
theorem test_step_last_word : (ran (State.reset.setPc 0xFFE) 0x00E0).pc = 0x1000 := by decide

/-- S5 (R59). -/
theorem test_step_odd_pc : (ran (State.reset.setPc 0x201) 0x1201).pc = 0x201 := by decide

/-- S6 (R227): the first step after construction, with no program loaded. -/
theorem test_step_no_program :
    (stateOf State.reset (step State.reset)).result = .unknownOpcode 0 ∧
    (stateOf State.reset (step State.reset)).pc = 0x202 := by decide

/-- R191. -/
theorem test_result_codes :
    [Result.ok, .unknownOpcode 0, .stackOverflow 0, .stackUnderflow 0, .pcOutOfBounds 0].map Result.code =
      [0, 1, 2, 3, 4] ∧
    [Result.memoryOutOfBounds 0 0, .keyIndexOutOfRange 0 0, .halted, .programTooLarge 0,
      .badArgument (.keyIndex 16)].map Result.code = [5, 6, 7, 8, 9] := by decide

/-! ## Control transfer -/

/-- F2. -/
theorem test_ret :
    (ran { stacked 2 0x40A with stack := (Vector.replicate 16 (0x40A : Word)).set 0 0x204 } 0x00EE).pc = 0x40A ∧
    (ran { stacked 2 0x40A with stack := (Vector.replicate 16 (0x40A : Word)).set 0 0x204 } 0x00EE).sp = 1 := by decide

/-- F1. -/
theorem test_ret_underflow :
    (ran (State.reset.setPc 0x300) 0x00EE).result = .stackUnderflow 0x00EE ∧
    (ran (State.reset.setPc 0x300) 0x00EE).pc = 0x302 := by decide

/-- W6. -/
theorem test_jp : (ran State.reset 0x1234).pc = 0x234 := by decide

/-- F5. -/
theorem test_call :
    (ran ((stacked 15 0).setPc 0x250) 0x2300).stack[15] = 0x252 ∧ (ran ((stacked 15 0).setPc 0x250) 0x2300).sp = 16 ∧
    (ran ((stacked 15 0).setPc 0x250) 0x2300).pc = 0x300 := by decide

/-- F6. -/
theorem test_call_overflow :
    (ran ((stacked 16 7).setPc 0x250) 0x2300).result = .stackOverflow 0x2300 ∧
    (ran ((stacked 16 7).setPc 0x250) 0x2300).pc = 0x252 ∧ (ran ((stacked 16 7).setPc 0x250) 0x2300).sp = 16 := by
  decide

/-- F8, F9. -/
theorem test_seByte :
    (ran (State.reset.setReg 3 0x42) 0x3342).pc = 0x204 ∧ (ran (State.reset.setReg 3 0x41) 0x3342).pc = 0x202 := by decide

/-- F12, F13. -/
theorem test_sneByte :
    (ran (State.reset.setReg 3 0x41) 0x4342).pc = 0x204 ∧ (ran (State.reset.setReg 3 0x42) 0x4342).pc = 0x202 := by decide

/-- F14, R106. -/
theorem test_seReg : (ran (regs 1 7 2 7) 0x5120).pc = 0x204 ∧ (ran (regs 1 7 2 8) 0x5120).pc = 0x202 := by decide

/-- F16, R107. -/
theorem test_sneReg : (ran (regs 1 7 2 8) 0x9120).pc = 0x204 ∧ (ran (regs 1 7 2 7) 0x9120).pc = 0x202 := by decide

/-- F19, F20. -/
theorem test_jpV0 :
    (ran (State.reset.setReg 0 0x10) 0xB300).pc = 0x310 ∧ (ran (State.reset.setReg 0 0xFF) 0xBFFF).pc = 0x10FE := by
  decide

/-! ## Arithmetic, logic, shifts, random -/

/-- A1. -/
theorem test_ldByte : (ran State.reset 0x6F05).reg 15 = 5 := by decide

/-- A2. -/
theorem test_addByte :
    (ran (regs 1 0xFF 15 0x55) 0x7101).reg 1 = 0 ∧ (ran (regs 1 0xFF 15 0x55) 0x7101).reg 15 = 0x55 := by decide

/-- A4. -/
theorem test_ldReg : (ran (regs 1 9 2 0x33) 0x8120).reg 1 = 0x33 := by decide

/-- A5. -/
theorem test_orReg :
    (ran ((regs 1 0x0C 2 0x0A).setReg 15 1) 0x8121).reg 1 = 0x0E ∧
    (ran ((regs 1 0x0C 2 0x0A).setReg 15 1) 0x8121).reg 15 = 1 := by decide

/-- A6. -/
theorem test_andReg : (ran (regs 1 0x0C 2 0x0A) 0x8122).reg 1 = 0x08 := by decide

/-- A7. -/
theorem test_xorReg : (ran (regs 1 0x0C 2 0x0A) 0x8123).reg 1 = 0x06 := by decide

/-- W2 (and W3: see 90_conflicts.md C7). -/
theorem test_addReg :
    (ran (regs 1 250 2 10) 0x8124).reg 1 = 4 ∧ (ran (regs 1 250 2 10) 0x8124).reg 15 = 1 ∧
    (ran (regs 1 10 2 250) 0x8124).reg 15 = 1 ∧ (ran (regs 1 0x80 2 0x7F) 0x8124).reg 15 = 0 := by decide

/-- A12, A13. -/
theorem test_addReg_vf :
    (ran (regs 15 0xF0 1 0x20) 0x8F14).reg 15 = 0x10 ∧ (ran (regs 1 0xF0 15 0x20) 0x81F4).reg 1 = 0x10 ∧
    (ran (regs 1 0xF0 15 0x20) 0x81F4).reg 15 = 1 := by decide

/-- W4, A15, A16. -/
theorem test_subReg :
    (ran (regs 1 5 2 10) 0x8125).reg 1 = 0xFB ∧ (ran (regs 1 5 2 10) 0x8125).reg 15 = 0 ∧
    (ran (regs 1 10 2 5) 0x8125).reg 15 = 1 ∧ (ran (regs 1 5 2 5) 0x8125).reg 15 = 0 := by decide

/-- A18, A19. -/
theorem test_subReg_vf :
    (ran (regs 15 3 1 5) 0x8F15).reg 15 = 0xFE ∧ (ran (regs 1 5 15 3) 0x81F5).reg 1 = 2 ∧
    (ran (regs 1 5 15 3) 0x81F5).reg 15 = 1 := by decide

/-- W5, A23. -/
theorem test_shr :
    (ran (regs 1 0x81 2 0xFF) 0x8126).reg 1 = 0x40 ∧ (ran (regs 1 0x81 2 0xFF) 0x8126).reg 15 = 1 ∧
    (ran (regs 1 0x04 2 0xFF) 0x8126).reg 1 = 2 ∧ (ran (regs 1 0x04 2 0xFF) 0x8126).reg 2 = 0xFF := by decide

/-- A24. -/
theorem test_shr_vf : (ran (State.reset.setReg 15 3) 0x8F06).reg 15 = 1 := by decide

/-- A25, A26, A27. -/
theorem test_subnReg :
    (ran (regs 1 5 2 10) 0x8127).reg 1 = 5 ∧ (ran (regs 1 5 2 10) 0x8127).reg 15 = 1 ∧
    (ran (regs 1 10 2 5) 0x8127).reg 1 = 0xFB ∧ (ran (regs 1 7 2 7) 0x8127).reg 15 = 0 := by decide

/-- A28. -/
theorem test_subnReg_vf : (ran (regs 15 3 1 5) 0x8F17).reg 15 = 2 := by decide

/-- A29, A30. -/
theorem test_shl :
    (ran (State.reset.setReg 1 0x80) 0x810E).reg 1 = 0 ∧ (ran (State.reset.setReg 1 0x80) 0x810E).reg 15 = 1 ∧
    (ran (State.reset.setReg 1 0x7F) 0x810E).reg 1 = 0xFE := by decide

/-- A31. -/
theorem test_shl_vf : (ran (State.reset.setReg 15 0x81) 0x8F0E).reg 15 = 2 := by decide

/-- A33, A34: the draw is free, so the expected value is stated in terms of it. -/
theorem test_rnd : (ran State.reset 0xC1F0).reg 1 = Config.rand8 0 &&& 0xF0 := rfl

/-- A32. -/
theorem test_rnd_zero_mask : (ran State.reset 0xC100).reg 1 = 0 := by
  show Config.rand8 0 &&& 0 = 0
  simp

/-! ## Index register and memory -/

/-- M1. -/
theorem test_ldI : (ran State.reset 0xAFFF).i = 0xFFF := by decide

/-- M2, M3. -/
theorem test_addI :
    (ran ((State.reset.setReg 0 1).setIndex 0xFFF) 0xF01E).i = 0x1000 ∧
    (ran ((State.reset.setReg 0 1).setIndex 0xFFF) 0xF01E).reg 15 = 0 ∧
    (ran ((State.reset.setReg 0 2).setIndex 0xFFFF) 0xF01E).i = 1 := by decide

/-- M5, M7. -/
theorem test_ldFont :
    (ran (State.reset.setReg 0 0xF) 0xF029).i = 0x04B ∧ (ran (State.reset.setReg 0 0xFF) 0xF029).i = 0x4FB := by decide

/-- W11. -/
theorem test_ldBcd :
    [0x300, 0x301, 0x302].map (ran ((State.reset.setReg 1 157).setIndex 0x300) 0xF133).mem.read = [1, 5, 7] := by decide

/-- M12. -/
theorem test_ldBcd_out_of_bounds :
    (ran (State.reset.setIndex 0xFFE) 0xF033).result = .memoryOutOfBounds 0xF033 0x1000 ∧
    (ran (State.reset.setIndex 0xFFE) 0xF033).halted = true ∧ (ran (State.reset.setIndex 0xFFE) 0xF033).pc = 0x202 ∧
    (ran (State.reset.setIndex 0xFFE) 0xF033).mem = (State.reset.withFetchWord 16 0xF033).mem := by decide

/-- M13, M19. -/
theorem test_storeRegs :
    [0xFF0, 0xFF1, 0xFFF].map (ran ((regs 1 2 15 9).setIndex 0xFF0) 0xFF55).mem.read = [0, 2, 9] ∧
    (ran ((regs 1 2 15 9).setIndex 0xFF0) 0xFF55).i = 0xFF0 ∧
    (ran (State.reset.setReg 0 0xEE) 0xF055).mem.read 0 = 0xEE := by decide

/-- M14. -/
theorem test_storeRegs_out_of_bounds :
    (ran ((State.reset.setReg 0 7).setIndex 0xFF1) 0xFF55).result = .memoryOutOfBounds 0xFF55 0x1000 ∧
    (ran ((State.reset.setReg 0 7).setIndex 0xFF1) 0xFF55).mem.read 0xFF1 = 0 := by decide

/-- M17, M18. -/
theorem test_loadRegs :
    (ran (atI 0x300 [0xAB, 0xCD] (State.reset.setReg 1 0x11)) 0xF065).reg 0 = 0xAB ∧
    (ran (atI 0x300 [0xAB, 0xCD] (State.reset.setReg 1 0x11)) 0xF065).reg 1 = 0x11 ∧
    (ran (atI 0x300 (List.replicate 15 0 ++ [0x77])) 0xFF65).reg 15 = 0x77 := by decide

/-- M16. -/
theorem test_loadRegs_out_of_bounds :
    (ran (State.reset.setIndex 0x2000) 0xF065).result = .memoryOutOfBounds 0xF065 0x2000 ∧
    (ran (State.reset.setIndex 0x2000) 0xF065).halted = true := by decide

/-! ## Display -/

/-- D1. -/
theorem test_cls :
    (ran { State.reset with fb := Framebuffer.clear.setCell 63 31 true } 0x00E0).fb.cell 63 31 = false := by decide

/-- D2, D3 (R162): the wrap at both edges. -/
theorem test_drw_wraps :
    (ran (atI 0x300 [0xC0] (regs 0 63 1 0)) 0xD011).fb.cell 63 0 = true ∧
    (ran (atI 0x300 [0xC0] (regs 0 63 1 0)) 0xD011).fb.cell 0 0 = true ∧
    (ran (atI 0x300 [0x80, 0x80] (regs 0 0 1 31)) 0xD012).fb.cell 0 31 = true ∧
    (ran (atI 0x300 [0x80, 0x80] (regs 0 0 1 31)) 0xD012).fb.cell 0 0 = true := by decide

/-- D5, D9: a collision, and VF as a coordinate. -/
theorem test_drw_collision :
    (ran (atI 0x300 [0xC0] { State.reset with fb := Framebuffer.clear.setCell 1 0 true }) 0xD011).fb.cell 1 0 = false ∧
    (ran (atI 0x300 [0xC0] { State.reset with fb := Framebuffer.clear.setCell 1 0 true }) 0xD011).reg 15 = 1 ∧
    (ran (atI 0x300 [0x80] (regs 15 10 1 0)) 0xDF11).fb.cell 10 0 = true ∧
    (ran (atI 0x300 [0x80] (regs 15 10 1 0)) 0xDF11).reg 15 = 0 := by decide

/-! ## Keys and timers -/

/-- K1, K2. -/
theorem test_skp :
    (ran (pressed [5] (State.reset.setReg 0 5)) 0xE09E).pc = 0x204 ∧ (ran (State.reset.setReg 0 5) 0xE09E).pc = 0x202 := by
  decide

/-- K5. -/
theorem test_skp_out_of_range :
    (ran (State.reset.setReg 0 0x10) 0xE09E).result = .keyIndexOutOfRange 0xE09E 0x10 ∧
    (ran (State.reset.setReg 0 0x10) 0xE09E).halted = true ∧ (ran (State.reset.setReg 0 0x10) 0xE09E).pc = 0x202 := by
  decide

/-- K3, K4. -/
theorem test_sknp :
    (ran (State.reset.setReg 0 3) 0xE0A1).pc = 0x204 ∧ (ran (pressed [3] (State.reset.setReg 0 3)) 0xE0A1).pc = 0x202 := by
  decide

/-- R172. -/
theorem test_ldVxDt : (ran (State.reset.setDelay 0x3C) 0xF507).reg 5 = 0x3C := by decide

/-- K6, K7. -/
theorem test_ldVxKey :
    (ran State.reset 0xF30A).pc = 0x200 ∧ (ran State.reset 0xF30A).result = .ok ∧
    (ran (pressed [0] (State.reset.setReg 3 9)) 0xF30A).reg 3 = 0 ∧ (ran (pressed [0]) 0xF30A).pc = 0x202 := by decide

/-- K8. -/
theorem test_ldVxKey_highest : (ran (pressed [0, 15]) 0xF30A).reg 3 = 0xF := by decide

/-- K10. -/
theorem test_ldDtVx : (ran (State.reset.setReg 0 5) 0xF015).dt = 5 := by decide

/-- K12. -/
theorem test_ldStVx : (ran (State.reset.setReg 0 4) 0xF018).soundTimer = 4 := by decide

/-! ## Host commands -/

/-- R53: glyph A at 0x032, glyph F at 0x04B, nothing above the font. -/
theorem test_font :
    [0x032, 0x033, 0x034, 0x035, 0x036].map State.reset.mem.read = [0xF0, 0x90, 0xF0, 0x90, 0x90] ∧
    [0x04B, 0x04C, 0x04F, 0x050].map State.reset.mem.read = [0xF0, 0x80, 0x80, 0] := by decide

/-- R48, R220: constructing with the default font gives the power-on memory, in which nothing is listed. -/
theorem test_construct_default : Memory.writeBytes [] 0 defaultFontset = [] := by decide

/-- H3. -/
theorem test_reset :
    (told (pressed [4] { atI 0x300 [0x55] with halted := true }) .reset).halted = false ∧
    (told (pressed [4] { atI 0x300 [0x55] with halted := true }) .reset).mem.read 0x300 = 0 ∧
    (told (pressed [4] { atI 0x300 [0x55] with halted := true }) .reset).key[4] = true := by decide

/-- H5. -/
theorem test_load_program :
    [0x200, 0x201, 0x300].map (told (atI 0x300 [0x55]) (.loadProgram [0x12, 0x34])).mem.read = [0x12, 0x34, 0x55] := by
  decide

/-- W12: 3585 bytes are refused. -/
theorem test_load_program_too_large (bytes : List Byte) (h : bytes.length = 3585) :
    told State.reset (.loadProgram bytes) = State.reset.setResult (.programTooLarge 3585) := by
  show State.afterLoad bytes State.reset = _
  rw [State.afterLoad, if_neg (by rw [h]; decide), h]

/-- K13, K15. -/
theorem test_tick :
    (told { State.reset with st := 1, dt := 0 } .tickTimers).st = 0 ∧
    (told { State.reset with st := 1, dt := 0 } .tickTimers).dt = 0 ∧
    (told { State.reset with dt := 2, halted := true } .tickTimers).dt = 1 := by decide

/-- R46, H1. -/
theorem test_set_key :
    (told State.reset (.setKey 7 true)).key[7] = true ∧
    told State.reset (.setKey 16 true) = State.reset.setResult (.badArgument (.keyIndex 16)) := by decide

/-- R44, H2. -/
theorem test_is_set :
    (told { State.reset with fb := Framebuffer.clear.setCell 63 31 true } (.isSet 63 31)).result = .pixel true ∧
    (told State.reset (.isSet 64 0)).result = .badArgument (.pixelAt 64 0) := by decide

/-! ## Witnesses: inputs that meet the hypotheses of each statement that has some -/

/-- Reset with the bytes of a word at PC. -/
def fetching (w : Word) (pc : Word := 0x200) : State :=
  { State.reset with pc := pc, mem := Memory.writeBytes [] pc.toNat [highByte w, lowByte w] }

theorem ready_fetching (w : Word) (pc : Word) (h : pc.toNat ≤ 0xFFE) : (fetching w pc).ReadyToFetch := ⟨rfl, rfl, h⟩


theorem witness_EncodedInstructionDecodesBack : Instr.wellFormed (.drw 15 15 15) = true := by decide

theorem witness_DecodedWordEncodesBack : ∃ i, decodeWord 0xFF65 = .ok i := ⟨.loadRegs 15, by decide⟩

theorem witness_AtMostOneRowAccepts :
    opcodeRows[33].accepts 0xFF65 = true ∧ opcodeRows[0].accepts 0x00E0 = true := by decide

theorem witness_InvalidWords :
    (∀ n ∈ [0x0000, 0x0FFF], n / 4096 = 0x0 ∧ n ≠ 0x00E0 ∧ n ≠ 0x00EE) ∧
    (∀ n ∈ [0x5001, 0x5FFF], n / 4096 = 0x5 ∧ n % 16 ≠ 0) ∧
    (∀ n ∈ [0x8008, 0x8FFF], n / 4096 = 0x8 ∧ n % 16 ∈ [0x8, 0x9, 0xA, 0xB, 0xC, 0xD, 0xF]) ∧
    (∀ n ∈ [0x9001, 0x9FFF], n / 4096 = 0x9 ∧ n % 16 ≠ 0) ∧
    (∀ n ∈ [0xE000, 0xEFFF], n / 4096 = 0xE ∧ n % 256 ∉ [0x9E, 0xA1]) ∧
    (∀ n ∈ [0xF000, 0xFFFF], n / 4096 = 0xF ∧
      n % 256 ∉ [0x07, 0x0A, 0x15, 0x18, 0x1E, 0x29, 0x33, 0x55, 0x65]) := by decide

theorem witness_StepRunsTheDecodedInstruction :
    (fetching 0x1234 0xFFE).halted = false ∧ (fetching 0x1234 0xFFE).pc.toNat ≤ 0xFFE ∧
    decodeWord (fetching 0x1234 0xFFE).wordAtPc = .ok (.jp 0x234) ∧ (fetching 0x1234 0xFFE).schedule = [] ∧
    { fetching 0x1234 0xFFE with schedule := [.step true] }.schedule = .step true :: [] := by decide

theorem witness_HaltedStepChangesNothing :
    (∃ s : State, s.NextIsStep [] ∧ s.halted = true) ∧ ∃ s : State, s.NextIsStep [.reset] ∧ s.halted = true :=
  ⟨⟨{ State.reset with halted := true }, .inl ⟨rfl, rfl⟩, rfl⟩,
    { State.reset with halted := true, schedule := [.step true, .reset] }, .inr ⟨true, rfl⟩, rfl⟩

theorem witness_FetchBeyondMemoryIsReported :
    (∃ s : State, s.NextIsStep [] ∧ s.halted = false ∧ s.pc.toNat = 0xFFF) ∧
    ∃ s : State, s.NextIsStep [.reset] ∧ s.halted = false ∧ s.pc.toNat = 0x10FE :=
  ⟨⟨State.reset.setPc 0xFFF, .inl ⟨rfl, rfl⟩, rfl, rfl⟩,
    { State.reset.setPc 0x10FE with schedule := [.step true, .reset] }, .inr ⟨true, rfl⟩, rfl, rfl⟩

theorem witness_UnknownOpcodeKeepsTheIncrement :
    (∃ s : State, s.NextIsStep [] ∧ s.halted = false ∧ s.pc.toNat = 0xFFE ∧
      ∀ r ∈ opcodeRows, s.wordAtPc &&& r.mask ≠ r.pattern) ∧
    ∃ s : State, s.NextIsStep [.reset] ∧ s.halted = false ∧ s.pc.toNat ≤ 0xFFE ∧
      ∀ r ∈ opcodeRows, s.wordAtPc &&& r.mask ≠ r.pattern :=
  ⟨⟨fetching 0x5121 0xFFE, .inl ⟨rfl, rfl⟩, rfl, rfl, by decide⟩,
    { fetching 0x5121 with schedule := [.step true, .reset] }, .inr ⟨true, rfl⟩, rfl, by decide, by decide⟩

theorem witness_InstructionErrorsArePrecise :
    ∃ t, exec .ret State.reset = .next t ∧ t.result ≠ .ok := ⟨_, rfl, by decide⟩

/-- A halted core with commands still to come: a run whose schedule holds no load, no tick and no key, and one that holds all
three. -/
theorem witness_HaltLastsUntilReset :
    (∃ s t : State, s.HaltedForGood ∧ step s = .next t) ∧
    (∃ s t : State, s.HaltedForGood ∧ Machine.run 2 s = .next t ∧ (∀ bytes, Command.loadProgram bytes ∉ s.schedule) ∧
      Command.tickTimers ∉ s.schedule ∧ ∀ k p, Command.setKey k p ∉ s.schedule) ∧
    ∃ s t : State, s.HaltedForGood ∧ Machine.run 3 s = .next t ∧
      s.schedule = [.loadProgram [1], .tickTimers, .setKey 0 true] :=
  ⟨⟨{ State.reset with halted := true, schedule := [.step true] }, _, ⟨rfl, by decide⟩, rfl⟩,
    ⟨{ State.reset with halted := true, schedule := [.isSet 0 0, .step false] }, _, ⟨rfl, by decide⟩, rfl, by simp,
      by decide, by simp⟩,
    { State.reset with halted := true, schedule := [.loadProgram [1], .tickTimers, .setKey 0 true] }, _,
      ⟨rfl, by decide⟩, rfl, rfl⟩

theorem witness_EveryStepKeepsTheInvariant : ∃ t, State.reset.Inv ∧ step State.reset = .next t :=
  ⟨_, ⟨rfl, by decide, by decide⟩, rfl⟩

theorem witness_ReadReturnsTheLastWrite : Memory.wf [(0x300, 1)] = true ∧ 0xFFF < 0x1000 := by decide

theorem witness_EqualReadsMeanEqualMemories :
    ∃ m m' : Memory, m.wf = true ∧ m'.wf = true ∧ m ≠ [] ∧ ∀ a, a < 0x1000 → m.read a = m'.read a :=
  ⟨[(0x300, 1)], Memory.write [] 0x300 1, by decide, by decide, by decide, fun _ _ => rfl⟩

theorem witness_StoredRegistersAreFetched :
    ∃ t, (14 : Nat) + 1 ≤ (15 : Reg).val ∧ Memory.wf (State.reset.setIndex 0xFF0).mem = true ∧
      exec (.storeRegs 15) (State.reset.setIndex 0xFF0) = .next t ∧ t.result = .ok :=
  ⟨_, by decide, rfl, rfl, rfl⟩

theorem witness_JumpWritesPc :
    ((fetching 0x1200).ReadyToFetch ∧ (fetching 0x1200).wordAtPc.toNat = 0x1000 + (fetching 0x1200).pc.toNat) ∧
    ∃ t, State.reset.schedule = [] ∧ State.reset.halted = false ∧ exec (.jp 0xFFF) State.reset = .next t :=
  ⟨⟨ready_fetching _ _ (by decide), by decide⟩, _, rfl, rfl, rfl⟩

theorem witness_CallPushesTheReturnAddress :
    (0 : Fin 16).val = (stacked 0 0).sp.val ∧ (15 : Fin 16).val = (stacked 15 0).sp.val ∧ (stacked 16 0).sp.val = 16 := by
  decide

theorem witness_ReturnPopsTheTopSlot :
    (0 : Fin 16).val + 1 = (stacked 1 0).sp.val ∧ (15 : Fin 16).val + 1 = (stacked 16 0).sp.val ∧
    (stacked 0 0).sp.val = 0 := by decide

theorem witness_ReturnUndoesCall : (stacked 15 0).sp.val < 16 ∧ (14 : Fin 16).val < (stacked 15 0).sp.val := by decide

theorem witness_ImmediateSkips :
    ((regs 3 0x42 1 0).reg 3).toNat = (0x42 : Byte).toNat ∧ ((regs 3 0x42 1 0).reg 3).toNat ≠ (0x43 : Byte).toNat := by
  decide

theorem witness_RegisterSkips :
    ((regs 1 7 2 7).reg 1).toNat = ((regs 1 7 2 7).reg 2).toNat ∧
    ((regs 1 7 2 8).reg 1).toNat ≠ ((regs 1 7 2 8).reg 2).toNat ∧
    ((0x5001 : Word).toNat / 4096 = 5 ∧ (0x5001 : Word).toNat % 16 ≠ 0) ∧
    ((0x9FFF : Word).toNat / 4096 = 9 ∧ (0x9FFF : Word).toNat % 16 ≠ 0) := by decide

theorem witness_LoadsAndImmediateAdd : (1 : Reg) ≠ Reg.vf ∧ (3 : Reg) = 3 := by decide

/-- Strictly less, equal and greater operands, with x not F. -/
theorem witness_SubtractionsCompareStrictly :
    (1 : Reg) ≠ Reg.vf ∧ ((regs 1 5 2 4).reg 2).toNat < ((regs 1 5 2 4).reg 1).toNat ∧
    ((regs 1 5 2 5).reg 1).toNat ≤ ((regs 1 5 2 5).reg 2).toNat ∧
    ((regs 1 4 2 5).reg 1).toNat < ((regs 1 4 2 5).reg 2).toNat := by decide

theorem witness_AdditionCarriesIntoVF : (1 : Reg) ≠ Reg.vf := by decide

theorem witness_ShiftsMoveOneBit : (1 : Reg) ≠ Reg.vf := by decide

theorem witness_OtherInstructionsIgnoreTheDraws :
    ∃ t, (∀ x nn, Instr.cls ≠ .rnd x nn) ∧ exec .cls State.reset = .next t := ⟨_, by simp, rfl⟩

theorem witness_BcdStoresThreeDigits :
    (State.reset.setIndex 0xFFD).mem.wf = true ∧ (State.reset.setIndex 0xFFD).i.toNat + 2 ≤ 0xFFF := by decide

theorem witness_RegistersAreStoredInOrder :
    (State.reset.setIndex 0xFF0).mem.wf = true ∧ (State.reset.setIndex 0xFF0).i.toNat + (15 : Reg).val ≤ 0xFFF ∧
    (State.reset.setIndex 0xFFF).i.toNat + (0 : Reg).val ≤ 0xFFF := by decide

theorem witness_RegistersAreLoadedInOrder :
    (State.reset.setIndex 0xFF0).i.toNat + (15 : Reg).val ≤ 0xFFF ∧
    (State.reset.setIndex 0xFFF).i.toNat + (0 : Reg).val ≤ 0xFFF := by decide

/-- The lowest I that each clause stops on. -/
theorem witness_BlockOutOfBoundsAborts :
    0xFFF < (State.reset.setIndex 0xFFE).i.toNat + 2 ∧ 0xFFF < (State.reset.setIndex 0xFF1).i.toNat + (15 : Reg).val ∧
    0xFFF < (State.reset.setIndex 0x1000).i.toNat + (0 : Reg).val ∧
    (0 < 15 ∧ 15 < 16 ∧ 0xFFF < (State.reset.setIndex 0xFF2).i.toNat + 15 - 1) ∧
    (0 < 1 ∧ 1 < 16 ∧ 0xFFF < (State.reset.setIndex 0x1000).i.toNat + 1 - 1) := by decide

/-- n = 0 with I anywhere, n = 15 with its last byte at 0xFFF; a sprite that hits a set cell, one that hits none. -/
theorem witness_DrawXorsExactlyTheSprite :
    (0 < 16 ∧ (0 = 0 ∨ (State.reset.setIndex 0xFFFF).i.toNat + 0 - 1 ≤ 0xFFF)) ∧
    (15 < 16 ∧ (15 = 0 ∨ (State.reset.setIndex 0xFF1).i.toNat + 15 - 1 ≤ 0xFFF)) ∧
    (∃ px py, (atI 0x300 [0x80] { State.reset with fb := Framebuffer.clear.setCell 0 0 true }).SpriteCovers 0 1 1 px py ∧
      (Framebuffer.clear.setCell 0 0 true).cell px py = true) ∧
    (∀ px py, (atI 0x300 [0x80]).SpriteCovers 0 1 1 px py → (atI 0x300 [0x80]).fb.cell px py = false) :=
  ⟨by decide, by decide, ⟨0, 0, ⟨0, 0, by decide, by decide, by decide, by decide, by decide⟩, by decide⟩,
    fun px py _ => by simp [atI, State.reset, Framebuffer.clear, Framebuffer.cell, State.setMem, State.setIndex]⟩

/-- The first draw turns a cell on, so the second collides; and a sprite whose one cell is already on, so the second does
not. -/
theorem witness_DrawingTwiceRestoresTheScreen :
    (1 < 16 ∧ (1 = 0 ∨ (atI 0x300 [0x80]).i.toNat + 1 - 1 ≤ 0xFFF) ∧ (0 : Reg) ≠ Reg.vf ∧ (1 : Reg) ≠ Reg.vf) ∧
    (∃ px py, (atI 0x300 [0x80]).SpriteCovers 0 1 1 px py ∧ (atI 0x300 [0x80]).fb.cell px py = false) ∧
    ∀ px py, (atI 0x300 [0]).SpriteCovers 0 1 1 px py → (atI 0x300 [0]).fb.cell px py = true := by
  refine ⟨by decide, ⟨0, 0, ⟨0, 0, by decide, by decide, by decide, by decide, by decide⟩, by decide⟩, ?_⟩
  rintro px py ⟨r, c, hr, -, hb, -⟩
  obtain rfl : r = 0 := by omega
  have h0 : (atI 0x300 [0]).mem.read ((atI 0x300 [0]).i.toNat + 0) = 0 := by decide
  rw [h0] at hb
  simp at hb

theorem witness_KeySkips :
    ((regs 0 15 1 0).reg 0).toNat = (15 : Key).val ∧ (pressed [15]).key[(15 : Key)] = true ∧
    (pressed []).key[(15 : Key)] = false := by decide

theorem witness_KeyIndexOutOfRangeAborts :
    16 ≤ ((regs 0 16 1 0).reg 0).toNat ∧ 16 ≤ ((regs 0 255 1 0).reg 0).toNat := by decide

theorem witness_KeyWaitTakesTheHighestKey :
    (pressed [0, 11]).key[(11 : Key)] = true ∧ (∀ j : Key, 11 < j → (pressed [0, 11]).key[j] = false) ∧
    (pressed [15]).key[(15 : Key)] = true ∧ ∀ j : Key, 15 < j → (pressed [15]).key[j] = false := by decide

theorem witness_KeyWaitIsAFixedPoint :
    (fetching 0xF30A).ReadyToFetch ∧ (fetching 0xF30A).wordAtPc.toNat = 0xF00A + (3 : Reg).val * 256 ∧
    ∀ k : Key, (fetching 0xF30A).key[k] = false := ⟨ready_fetching _ _ (by decide), by decide, by decide⟩

theorem witness_SimpleInstructionsChangeOnlyWhatTheyName :
    (∃ t, exec (.addByte 1 0xFF) State.reset = .next t) ∧ (∃ t, exec (.seByte 1 0) State.reset = .next t) ∧
    ∃ t, exec (.addI 1) State.reset = .next t := ⟨⟨_, rfl⟩, ⟨_, rfl⟩, _, rfl⟩

/-- One instruction for each clause, that does change the piece of state. -/
theorem witness_WritersOfEachPieceOfState :
    (∃ t, exec (.ldI 1) State.reset = .next t ∧ t.i ≠ State.reset.i) ∧
    (∃ t, exec (.call 1) State.reset = .next t ∧ t.sp ≠ State.reset.sp ∧ t.stack ≠ State.reset.stack) ∧
    (∃ t, exec (.storeRegs 0) (State.reset.setReg 0 1) = .next t ∧ t.mem ≠ State.reset.mem) ∧
    (∃ t, exec (.ldDtVx 0) (State.reset.setReg 0 1) = .next t ∧ t.dt ≠ State.reset.dt) ∧
    ∃ t, exec (.ldStVx 0) (State.reset.setReg 0 1) = .next t ∧ t.st ≠ State.reset.st :=
  ⟨⟨_, rfl, by decide⟩, ⟨_, rfl, by decide, by decide⟩, ⟨_, rfl, by decide⟩, ⟨_, rfl, by decide⟩, _, rfl, by decide⟩

theorem witness_WritersOfTheFramebuffer :
    ∃ s t, exec .cls s = .next t ∧ t.fb ≠ s.fb :=
  ⟨{ State.reset with fb := Framebuffer.clear.setCell 0 0 true }, _, rfl, fun h =>
    absurd (congrArg (fun f => Framebuffer.cell f 0 0) h) (by decide)⟩

theorem witness_InstructionsNeverWriteTheLatch : ∃ t, exec (.skp 0) State.reset = .next t := ⟨_, rfl⟩

theorem witness_OnlyNamedInstructionsWriteVF :
    ∃ t, exec (.addReg 0 1) (regs 0 255 1 255) = .next t ∧ t.reg Reg.vf ≠ (regs 0 255 1 255).reg Reg.vf :=
  ⟨_, rfl, by decide⟩

theorem witness_SoundTimerIsNeverRead :
    (∃ t, exec .cls State.reset = .next t ∧ ∀ x, Instr.cls ≠ .ldStVx x) ∧
    ∃ t, exec (.ldStVx 0) State.reset = .next t := ⟨⟨_, rfl, by simp⟩, _, rfl⟩

theorem witness_SelfJumpRunsForEver :
    (fetching 0x1FFE 0xFFE).ReadyToFetch ∧
    (fetching 0x1FFE 0xFFE).wordAtPc.toNat = 0x1000 + (fetching 0x1FFE 0xFFE).pc.toNat :=
  ⟨ready_fetching _ _ (by decide), by decide⟩

theorem witness_ConstructionValues :
    ∃ s : State, s.halted = true ∧ s.schedule = .construct (Vector.replicate 80 0xFF) :: [.tickTimers] :=
  ⟨{ State.reset with halted := true, schedule := [.construct (Vector.replicate 80 0xFF), .tickTimers] }, rfl, rfl⟩

theorem witness_ResetValues :
    ∃ s : State, s.schedule = .reset :: [] ∧ s.mem.wf = true ∧ s.mem ≠ [] :=
  ⟨{ atI 0x300 [1] with schedule := [.reset] }, rfl, by decide, by decide⟩

theorem witness_ResetErasesTheProgram :
    (∃ s : State, s.mem.read 0x300 = 1 ∧ s.schedule = .reset :: []) ∧
    ∃ s : State, s.mem.wf = true ∧ (List.replicate 3584 (0xFF : Byte)).length ≤ 3584 ∧
      s.schedule = .loadProgram (List.replicate 3584 0xFF) :: .reset :: [] :=
  ⟨⟨{ atI 0x300 [1] with schedule := [.reset] }, by decide, rfl⟩,
    { State.reset with schedule := [.loadProgram (List.replicate 3584 0xFF), .reset] }, rfl,
      Nat.le_of_eq List.length_replicate, rfl⟩

theorem witness_LoadProgramCopiesTheImage :
    State.reset.mem.wf = true ∧ (List.replicate 3584 (0xFF : Byte)).length ≤ 3584 ∧
    3584 < (List.replicate 3585 (0xFF : Byte)).length := ⟨rfl, Nat.le_of_eq List.length_replicate, by rw [List.length_replicate]; decide⟩

theorem witness_TickLowersNonzeroTimers :
    0 < (State.reset.setDelay 0xFF).dt.toNat ∧ (State.reset.setDelay 0).dt.toNat = 0 ∧
    0 < (State.reset.setSound 1).st.toNat ∧ (State.reset.setSound 0).st.toNat = 0 := by decide

theorem witness_TicksCountDownToZero :
    { State.reset with dt := 1, schedule := [.tickTimers, .tickTimers, .reset] }.schedule =
      List.replicate 2 .tickTimers ++ [.reset] := by decide

/-- F115 at 0x200, F207 at 0x202, three ticks between the two steps. -/
theorem witness_DelayReadBackDependsOnTheTicks :
    ∃ s : State, s.halted = false ∧ s.pc.toNat + 2 ≤ 0xFFE ∧ s.wordAtPc = encode (.ldDtVx 1) ∧
      (s.setPc (s.pc + 2)).wordAtPc = encode (.ldVxDt 2) ∧
      s.schedule = .step false :: (List.replicate 3 .tickTimers ++ .step true :: []) :=
  ⟨{ State.reset with
      mem := Memory.writeBytes [] 0x200 [0xF1, 0x15, 0xF2, 0x07]
      schedule := [.step false, .tickTimers, .tickTimers, .tickTimers, .step true] },
    rfl, by decide, by decide, by decide, rfl⟩

theorem witness_HostReadsAndRefusalsChangeNothing :
    63 < 64 ∧ 31 < 32 ∧ (64 ≤ 64 ∨ 32 ≤ 0) ∧ (64 ≤ 0 ∨ 32 ≤ 32) ∧ 16 ≤ 16 := by decide

end Sys2Proof.Tests
end

section
/-! The frames of R12 for an instruction whose meaning always ends with `Ok`: what its update of the state leaves unchanged,
its answer leaves unchanged. -/

namespace Sys2Proof.Machine

/-- Returning `Ok` writes the result alone (R97), so the answer has the frame of the update before it. -/
theorem ChangesOnly.of_finish {W : Component → Prop} {s t u : State} (hu : ChangesOnly W s u)
    (h : finish u = .next t) : ChangesOnly W s t := by
  rw [(finish_next_iff u t).mp h]
  exact hu.setResult .ok

/-- A skip on any condition, taken or not, changes PC alone (R100). -/
theorem changesOnly_of_skipIf {W : Component → Prop} {s t : State} (hW : W .pc) {c : Bool}
    (h : skipIf c s = .next t) : ChangesOnly W s t :=
  (changesOnly_skipIf s hW c).of_finish h

/-- Settles O46: each of the seven instructions answers `finish` of one named update, or a skip, whose frame the laws
of the state's operations give. -/
theorem simpleInstructionsChangeOnlyWhatTheyName : Obligations.SimpleInstructionsChangeOnlyWhatTheyName := by
  intro s t x y nn nnn i h
  refine ⟨?loads, ?skips, ?index⟩
  case loads =>
    have hx : Component.reg x ∈ [Component.reg x] := List.mem_singleton_self _
    rintro (rfl | rfl | rfl)
    · exact (changesOnly_setReg s hx nn).of_finish h
    · exact (changesOnly_setReg s hx (s.reg x + nn)).of_finish h
    · exact (changesOnly_setReg s hx (s.reg y)).of_finish h
  case skips =>
    have hpc : Component.pc ∈ [Component.pc] := List.mem_singleton_self _
    rintro (rfl | rfl)
    · exact changesOnly_of_skipIf hpc (c := s.reg x == nn) h
    · exact changesOnly_of_skipIf hpc (c := s.reg x != nn) h
  case index =>
    have hi : Component.index ∈ [Component.index] := List.mem_singleton_self _
    rintro (rfl | rfl)
    · exact (changesOnly_setIndex s hi (immAddr nnn)).of_finish h
    · exact (changesOnly_setIndex s hi (s.i + immByte (s.reg x))).of_finish h

end Sys2Proof.Machine
end

section
/-! What the host reads and writes between two steps: `is_set` and `set_key`. -/

namespace Sys2Proof.Machine

/-- One key written, and the result. -/
theorem changesOnly_setKey (s : State) (k : Key) (p : Bool) :
    ChangesOnlyList [.key k] s { s with key := s.key.set k p, result := .ok } := by
  refine ⟨fun c hc => ?_, rfl, rfl⟩
  cases c with
  | key j =>
    have hj : k.val ≠ j.val := fun e => hc (by rw [Fin.ext e]; exact List.mem_singleton_self _)
    simp [Vector.getElem_set_ne, hj]
  | _ => rfl

/-- Settles O59: an index up to 15 is in range, and the write of one element reads back. -/
theorem setKeyWritesOneKey : Obligations.SetKeyWritesOneKey := by
  intro s k p
  refine ⟨s.afterSetKey k.val p, rfl, ?_⟩
  rw [State.afterSetKey_of_lt s k.val p k.isLt]
  exact ⟨rfl, Vector.getElem_set_self _, changesOnly_setKey s k p⟩

/-- Whatever its arguments, `is_set` changes its result alone (R44, R47). -/
theorem State.afterIsSet_eq_setResult (s : State) (px py : Nat) : ∃ r, s.afterIsSet px py = s.setResult r := by
  unfold State.afterIsSet
  split
  · exact ⟨_, rfl⟩
  · exact ⟨_, rfl⟩

/-- Settles O60: on the screen and off it, and with an index out of range, only the result is set. -/
theorem hostReadsAndRefusalsChangeNothing : Obligations.HostReadsAndRefusalsChangeNothing := by
  intro s px py k p
  refine ⟨⟨s.afterIsSet px py, rfl, ?frame, fun hx hy => ?on, fun h => ?off⟩, fun hk => ?refused⟩
  case frame =>
    obtain ⟨r, hr⟩ := s.afterIsSet_eq_setResult px py
    rw [hr]
    exact changesOnly_setResult s _ r
  case on => rw [State.afterIsSet_of_lt s px py hx hy, State.setResult_result]
  case off => rw [State.afterIsSet_of_ge s px py h, State.setResult_result]
  case refused =>
    refine ⟨s.afterSetKey k p, rfl, ?_⟩
    rw [State.afterSetKey_of_ge s k p hk]
    exact ⟨rfl, changesOnly_setResult s _ _⟩

end Sys2Proof.Machine
end

section
/-! What each instruction writes: one inversion of `exec` that lists the possible updates of the state. Who writes a piece
of state, and what every instruction keeps, are read off it case by case. -/

namespace Sys2Proof

/-- The instructions that write a single register and no flag, with `x` as that register; Cxnn is apart, as it also
counts a draw (R23). -/
def Instr.LoadsReg (i : Instr) (x : Reg) : Prop :=
  (∃ nn, i = .ldByte x nn ∨ i = .addByte x nn) ∨
  (∃ y, i = .ldReg x y ∨ i = .orReg x y ∨ i = .andReg x y ∨ i = .xorReg x y) ∨
  i = .ldVxDt x ∨ i = .ldVxKey x

/-- The instructions of the 8xy_ group that write VF and then their result to `x` (R23). -/
def Instr.SetsFlag (i : Instr) (x : Reg) : Prop :=
  ∃ y, i = .addReg x y ∨ i = .subReg x y ∨ i = .shr x y ∨ i = .subnReg x y ∨ i = .shl x y

end Sys2Proof

namespace Sys2Proof.Machine

/-- The updates of the state that an instruction can make before it returns its result: who writes what, with the bounds
the invariant needs. The values written are left open where no statement here speaks of them. -/
inductive Writes (s : State) : Instr → State → Prop where
  /-- An error, or a skip not taken. -/
  | nothing {i : Instr} : Writes s i s
  | register {i : Instr} {x : Reg} (b : Byte) (hi : i.LoadsReg x) : Writes s i (s.setReg x b)
  | random (x : Reg) (nn b : Byte) : Writes s (.rnd x nn) { s.setReg x b with draws := s.draws + 1 }
  | flagged {i : Instr} {x : Reg} (flag b : Byte) (hi : i.SetsFlag x) : Writes s i (s.setFlagThenReg flag x b)
  | block (x : Reg) : Writes s (.loadRegs x) { s with v := loadBlock s.mem s.i.toNat (x.val + 1) s.v }
  | clear : Writes s .cls (s.setFb Framebuffer.clear)
  | draw (x y : Reg) (n : Nat) (f : Framebuffer) (flag : Byte) :
      Writes s (.drw x y n) ((s.setFb f).setReg Reg.vf flag)
  | index {i : Instr} (w : Word) (hi : (∃ nnn, i = .ldI nnn) ∨ (∃ x, i = .addI x) ∨ ∃ x, i = .ldFont x) :
      Writes s i (s.setIndex w)
  | memory {i : Instr} (bs : List Byte) (hi : (∃ x, i = .ldBcd x) ∨ ∃ x, i = .storeRegs x)
      (hbs : s.i.toNat + bs.length ≤ 0x1000) : Writes s i (s.setMem (s.mem.writeBytes s.i.toNat bs))
  | delay (x : Reg) : Writes s (.ldDtVx x) (s.setDelay (s.reg x))
  | sound (x : Reg) : Writes s (.ldStVx x) (s.setSound (s.reg x))
  /-- 1nnn and Bnnn: the greatest target is 0xFF + 0xFFF (R27). -/
  | jump {i : Instr} (w : Word) (hw : w.toNat ≤ 0x10FE) : Writes s i (s.setPc w)
  | skip {i : Instr} : Writes s i s.skipNext
  /-- Fx0A with no key pressed (R177). -/
  | wait (x : Reg) : Writes s (.ldVxKey x) (s.setPc (s.pc - 2))
  | call (nnn : Addr) (h : s.sp.val < 16) : Writes s (.call nnn)
      { s with stack := s.stack.set s.sp.val s.pc h, sp := ⟨s.sp.val + 1, by omega⟩, pc := immAddr nnn }
  | ret (h : 0 < s.sp.val) : Writes s .ret
      { s with sp := ⟨s.sp.val - 1, by omega⟩, pc := s.stack[s.sp.val - 1]'(by omega) }

/-- The answer is a next state: one of the updates of the instruction, then the result and `halted`. -/
def Wrote (s : State) (i : Instr) (a : Answer) : Prop :=
  ∃ u r b, Writes s i u ∧ a = .next { u with result := r, halted := b }

theorem Writes.wrote_finish {s u : State} {i : Instr} (h : Writes s i u) : Wrote s i (finish u) :=
  ⟨u, .ok, u.halted, h, rfl⟩

theorem wrote_raise (s : State) (i : Instr) (e : Result) : Wrote s i (raise e s) :=
  ⟨s, e, s.halted || e.aborts, .nothing, rfl⟩

theorem wrote_skipIf (s : State) (i : Instr) (c : Bool) : Wrote s i (skipIf c s) := by
  cases c
  · exact Writes.nothing.wrote_finish
  · exact Writes.skip.wrote_finish

theorem wrote_execRet (s : State) : Wrote s .ret (execRet s) := by
  rcases Nat.eq_zero_or_pos s.sp.val with h | h
  · rw [execRet_of_zero s h]; exact wrote_raise s _ _
  · rw [execRet_of_pos s h]; exact (Writes.ret h).wrote_finish

theorem wrote_execCall (nnn : Addr) (s : State) : Wrote s (.call nnn) (execCall nnn s) := by
  rcases Nat.lt_or_ge s.sp.val 16 with h | h
  · rw [execCall_of_lt s nnn h]; exact (Writes.call nnn h).wrote_finish
  · rw [execCall_of_full s nnn (by omega)]; exact wrote_raise s _ _

theorem wrote_execDrw (x y : Reg) (n : Nat) (s : State) : Wrote s (.drw x y n) (execDrw x y n s) := by
  unfold execDrw
  split
  · exact wrote_raise s _ _
  · exact (Writes.draw x y n _ _).wrote_finish

theorem wrote_execLdBcd (x : Reg) (s : State) : Wrote s (.ldBcd x) (execLdBcd x s) := by
  rcases Nat.lt_or_ge 0x1000 (s.i.toNat + 3) with h | h
  · rw [execLdBcd_of_gt s x h]; exact wrote_raise s _ _
  · rw [execLdBcd_of_le s x h]; exact (Writes.memory _ (.inl ⟨x, rfl⟩) h).wrote_finish

theorem wrote_execStoreRegs (x : Reg) (s : State) : Wrote s (.storeRegs x) (execStoreRegs x s) := by
  rcases Nat.lt_or_ge 0x1000 (s.i.toNat + (x.val + 1)) with h | h
  · rw [execStoreRegs_of_gt s x h]; exact wrote_raise s _ _
  · rw [execStoreRegs_of_le s x h]
    have hlen : s.i.toNat + (s.regBlock (x.val + 1)).length ≤ 0x1000 := by
      rwa [State.length_regBlock s _ x.isLt]
    exact (Writes.memory _ (.inr ⟨x, rfl⟩) hlen).wrote_finish

theorem wrote_execLoadRegs (x : Reg) (s : State) : Wrote s (.loadRegs x) (execLoadRegs x s) := by
  unfold execLoadRegs
  split
  · exact wrote_raise s _ _
  · exact (Writes.block x).wrote_finish

theorem wrote_execSkp (x : Reg) (s : State) : Wrote s (.skp x) (execSkp x s) := by
  unfold execSkp
  split
  · exact wrote_skipIf s _ _
  · exact wrote_raise s _ _

theorem wrote_execSknp (x : Reg) (s : State) : Wrote s (.sknp x) (execSknp x s) := by
  unfold execSknp
  split
  · exact wrote_skipIf s _ _
  · exact wrote_raise s _ _

theorem wrote_execLdVxKey (x : Reg) (s : State) : Wrote s (.ldVxKey x) (execLdVxKey x s) := by
  unfold execLdVxKey
  split
  · exact (Writes.register _ (.inr (.inr (.inr rfl)))).wrote_finish
  · exact (Writes.wait x).wrote_finish

theorem wrote_execJp (nnn : Addr) (s : State) : Wrote s (.jp nnn) (execJp nnn s) :=
  (Writes.jump (immAddr nnn) (by rw [toNat_immAddr]; omega)).wrote_finish

theorem wrote_execJpV0 (nnn : Addr) (s : State) : Wrote s (.jpV0 nnn) (execJpV0 nnn s) := by
  have hsum : (immByte (s.reg 0) + immAddr nnn).toNat ≤ 0x10FE := by
    rw [BitVec.toNat_add, toNat_immByte, toNat_immAddr]
    omega
  exact (Writes.jump _ hsum).wrote_finish

/-- Every instruction answers with one of its updates (R94). -/
theorem wrote_exec (i : Instr) (s : State) : Wrote s i (exec i s) := by
  cases i with
  | cls => exact Writes.clear.wrote_finish
  | ret => exact wrote_execRet s
  | jp nnn => exact wrote_execJp nnn s
  | call nnn => exact wrote_execCall nnn s
  | seByte x nn => exact wrote_skipIf s _ _
  | sneByte x nn => exact wrote_skipIf s _ _
  | seReg x y => exact wrote_skipIf s _ _
  | sneReg x y => exact wrote_skipIf s _ _
  | ldByte x nn => exact (Writes.register _ (.inl ⟨nn, .inl rfl⟩)).wrote_finish
  | addByte x nn => exact (Writes.register _ (.inl ⟨nn, .inr rfl⟩)).wrote_finish
  | ldReg x y => exact (Writes.register _ (.inr (.inl ⟨y, .inl rfl⟩))).wrote_finish
  | orReg x y => exact (Writes.register _ (.inr (.inl ⟨y, .inr (.inl rfl)⟩))).wrote_finish
  | andReg x y => exact (Writes.register _ (.inr (.inl ⟨y, .inr (.inr (.inl rfl))⟩))).wrote_finish
  | xorReg x y => exact (Writes.register _ (.inr (.inl ⟨y, .inr (.inr (.inr rfl))⟩))).wrote_finish
  | addReg x y => exact (Writes.flagged _ _ ⟨y, .inl rfl⟩).wrote_finish
  | subReg x y => exact (Writes.flagged _ _ ⟨y, .inr (.inl rfl)⟩).wrote_finish
  | shr x y => exact (Writes.flagged _ _ ⟨y, .inr (.inr (.inl rfl))⟩).wrote_finish
  | subnReg x y => exact (Writes.flagged _ _ ⟨y, .inr (.inr (.inr (.inl rfl)))⟩).wrote_finish
  | shl x y => exact (Writes.flagged _ _ ⟨y, .inr (.inr (.inr (.inr rfl)))⟩).wrote_finish
  | ldI nnn => exact (Writes.index _ (.inl ⟨nnn, rfl⟩)).wrote_finish
  | jpV0 nnn => exact wrote_execJpV0 nnn s
  | rnd x nn => exact (Writes.random x nn _).wrote_finish
  | drw x y n => exact wrote_execDrw x y n s
  | skp x => exact wrote_execSkp x s
  | sknp x => exact wrote_execSknp x s
  | ldVxDt x => exact (Writes.register _ (.inr (.inr (.inl rfl)))).wrote_finish
  | ldVxKey x => exact wrote_execLdVxKey x s
  | ldDtVx x => exact (Writes.delay x).wrote_finish
  | ldStVx x => exact (Writes.sound x).wrote_finish
  | addI x => exact (Writes.index _ (.inr (.inl ⟨x, rfl⟩))).wrote_finish
  | ldFont x => exact (Writes.index _ (.inr (.inr ⟨x, rfl⟩))).wrote_finish
  | ldBcd x => exact wrote_execLdBcd x s
  | storeRegs x => exact wrote_execStoreRegs x s
  | loadRegs x => exact wrote_execLoadRegs x s

/-- The inversion of `exec`: the state it leaves is one of the instruction's updates, with a result and `halted` set. -/
theorem writes_of_exec {i : Instr} {s t : State} (h : exec i s = .next t) :
    ∃ u r b, Writes s i u ∧ t = { u with result := r, halted := b } := by
  obtain ⟨u, r, b, hu, ha⟩ := wrote_exec i s
  exact ⟨u, r, b, hu, Host.Outcome.next.inj (h.symm.trans ha)⟩

end Sys2Proof.Machine
end

section
/-! The invariant of R27 at reset and over every command. -/

namespace Sys2Proof.Machine

/-- Settles O14: memory is the empty list, PC is 0x200 and no slot is in use. -/
theorem invariantHoldsAtReset : Obligations.InvariantHoldsAtReset :=
  ⟨rfl, by decide, fun j hj => absurd hj (Nat.not_lt_zero j.val)⟩

/-- The invariant reads memory, PC, SP and the slots alone. -/
theorem State.Inv.congr {s t : State} (hs : s.Inv) (hmem : t.mem = s.mem) (hpc : t.pc = s.pc) (hsp : t.sp = s.sp)
    (hstack : t.stack = s.stack) : t.Inv := by
  refine ⟨hmem ▸ hs.mem_wf, hpc ▸ hs.pc_le, ?_⟩
  rw [hsp, hstack]
  exact hs.stack_le

/-- A push of a return address up to 0x1000 keeps the bound on the slots in use. -/
theorem State.Inv.stack_push {s : State} (hs : s.Inv) (hpc : s.pc.toNat ≤ 0x1000) (h : s.sp.val < 16) (j : Fin 16)
    (hj : j.val < s.sp.val + 1) : (s.stack.set s.sp.val s.pc h)[j].toNat ≤ 0x1000 := by
  by_cases hjs : s.sp.val = j.val
  · simpa [Vector.getElem_set, hjs] using hpc
  · have hold := hs.stack_le j (by omega)
    simpa [Vector.getElem_set, hjs] using hold

/-- Every instruction keeps the invariant, when it starts at a PC that a fetch leaves: 2 to 0x1000 (R92). -/
theorem Writes.keeps_inv {s u : State} {i : Instr} (h : Writes s i u) (hs : s.Inv) (hlo : 2 ≤ s.pc.toNat)
    (hhi : s.pc.toNat ≤ 0x1000) : u.Inv := by
  cases h with
  | memory bs hi hbs => exact ⟨Memory.wf_writeBytes hs.mem_wf hbs, hs.pc_le, hs.stack_le⟩
  | jump w hw => exact ⟨hs.mem_wf, hw, hs.stack_le⟩
  | skip =>
    refine ⟨hs.mem_wf, ?_, hs.stack_le⟩
    rw [State.skipNext_pc]
    bv_omega
  | wait x =>
    refine ⟨hs.mem_wf, ?_, hs.stack_le⟩
    rw [State.setPc_pc]
    bv_omega
  | call nnn h =>
    refine ⟨hs.mem_wf, ?_, hs.stack_push hhi h⟩
    show (immAddr nnn).toNat ≤ 0x10FE
    rw [toNat_immAddr]
    omega
  | ret h =>
    have htop := hs.stack_le ⟨s.sp.val - 1, by omega⟩ (Nat.sub_lt h Nat.one_pos)
    exact ⟨hs.mem_wf, htop.trans (by decide), fun j hj => hs.stack_le j (Nat.lt_of_lt_of_le hj (Nat.sub_le _ _))⟩
  | _ => exact hs.congr rfl rfl rfl rfl

/-- A raised error writes nothing the invariant reads (R195). -/
theorem State.Inv.of_raise {e : Result} {s t : State} (hs : s.Inv) (h : raise e s = .next t) : t.Inv := by
  rw [(raise_next_iff e s t).mp h]
  exact hs.congr rfl rfl rfl rfl

/-- A fetch in bounds leaves PC at 2 to 0x1000 (R58, R92). -/
theorem State.advancePc_bounds {s : State} (hp : s.pc.toNat ≤ 0xFFE) :
    2 ≤ s.advancePc.pc.toNat ∧ s.advancePc.pc.toNat ≤ 0x1000 := by
  rw [State.advancePc_pc]
  bv_omega

theorem State.Inv.advancePc {s : State} (hs : s.Inv) (hp : s.pc.toNat ≤ 0xFFE) : s.advancePc.Inv :=
  ⟨hs.mem_wf, (State.advancePc_bounds hp).2.trans (by decide), hs.stack_le⟩

/-- The step cycle keeps the invariant, in each of the four cases of R95. -/
theorem inv_stepCycle {l : Bool} {s t : State} (hs : s.Inv) (h : stepCycle l s = .next t) : t.Inv := by
  rcases stepCycle_cases l s with ⟨-, hc⟩ | ⟨-, -, hc⟩ | ⟨-, hp, hc⟩ | ⟨-, hp, i, -, hc⟩
  · exact hs.of_raise (hc ▸ h)
  · exact hs.of_raise (hc ▸ h)
  · exact (hs.advancePc hp).of_raise (hc ▸ h)
  · obtain ⟨u, r, b, hu, rfl⟩ := writes_of_exec (hc ▸ h)
    obtain ⟨hlo, hhi⟩ := State.advancePc_bounds hp
    exact (hu.keeps_inv (hs.advancePc hp) hlo hhi).congr rfl rfl rfl rfl

/-- Construction makes the invariant true, whatever the font (R220). -/
theorem State.inv_afterConstruct (fontset : Vector Byte 80) (s : State) : (s.afterConstruct fontset).Inv := by
  obtain ⟨-, hpc, hstack⟩ := invariantHoldsAtReset
  refine ⟨?_, hpc, hstack⟩
  exact Memory.wf_writeBytes Memory.wf_nil (by rw [Vector.length_toList]; decide)

/-- `reset` keeps memory canonical and sets PC and SP as at power-on (R221). -/
theorem State.Inv.afterReset {s : State} (hs : s.Inv) : s.afterReset.Inv := by
  obtain ⟨-, hpc, hstack⟩ := invariantHoldsAtReset
  exact ⟨Memory.wf_clearAboveFont hs.mem_wf, hpc, hstack⟩

/-- An accepted image ends at 0x1000 or below, and a refused one writes nothing (R224, R225). -/
theorem State.Inv.afterLoad {s : State} (hs : s.Inv) (bytes : List Byte) : (s.afterLoad bytes).Inv := by
  rcases Nat.lt_or_ge 3584 bytes.length with h | h
  · rw [State.afterLoad_of_gt s bytes h]
    exact hs.congr rfl rfl rfl rfl
  · rw [State.afterLoad_of_le s bytes h]
    exact ⟨Memory.wf_writeBytes hs.mem_wf (by omega), hs.pc_le, hs.stack_le⟩

theorem State.Inv.afterSetKey {s : State} (hs : s.Inv) (k : Nat) (p : Bool) : (s.afterSetKey k p).Inv := by
  unfold State.afterSetKey
  split
  · exact hs.congr rfl rfl rfl rfl
  · exact hs.congr rfl rfl rfl rfl

theorem State.Inv.afterIsSet {s : State} (hs : s.Inv) (px py : Nat) : (s.afterIsSet px py).Inv := by
  obtain ⟨r, hr⟩ := s.afterIsSet_eq_setResult px py
  rw [hr]
  exact hs.congr rfl rfl rfl rfl

/-- Every command keeps the invariant. -/
theorem inv_runCommand {c : Command} {s t : State} (hs : s.Inv) (h : runCommand c s = .next t) : t.Inv := by
  cases c with
  | step l => exact inv_stepCycle (l := l) hs h
  | construct fontset => cases h; exact s.inv_afterConstruct fontset
  | loadProgram bytes => cases h; exact hs.afterLoad bytes
  | reset => cases h; exact hs.afterReset
  | tickTimers => cases h; exact hs.congr rfl rfl rfl rfl
  | setKey k p => cases h; exact hs.afterSetKey k p
  | isSet px py => cases h; exact hs.afterIsSet px py

/-- Settles O13: the next command is a step, or the oldest of the schedule. -/
theorem everyStepKeepsTheInvariant : Obligations.EveryStepKeepsTheInvariant := by
  intro s t hs h
  cases hsched : s.schedule with
  | nil => exact inv_stepCycle hs (step_of_nil hsched ▸ h)
  | cons c rest =>
    have hs' : State.Inv { s with schedule := rest } := hs.congr rfl rfl rfl rfl
    exact inv_runCommand hs' (step_of_cons hsched ▸ h)

end Sys2Proof.Machine
end

section
/-! A halted core until its reset: what the commands that keep it halted can change (R209). -/

namespace Sys2Proof.Machine

/-- What a halted core keeps from `s` to `t` while only commands among `cs` run, none of which clears `halted`. -/
structure HaltFrame (cs : List Command) (s t : State) : Prop where
  v_eq : t.v = s.v
  i_eq : t.i = s.i
  pc_eq : t.pc = s.pc
  sp_eq : t.sp = s.sp
  stack_eq : t.stack = s.stack
  fb_eq : t.fb = s.fb
  draws_eq : t.draws = s.draws
  mem_eq : (∀ bytes, Command.loadProgram bytes ∉ cs) → t.mem = s.mem
  timers_eq : Command.tickTimers ∉ cs → t.dt = s.dt ∧ t.st = s.st
  key_eq : (∀ k p, Command.setKey k p ∉ cs) → t.key = s.key

theorem HaltFrame.refl (cs : List Command) (s : State) : HaltFrame cs s s :=
  ⟨rfl, rfl, rfl, rfl, rfl, rfl, rfl, fun _ => rfl, fun _ => ⟨rfl, rfl⟩, fun _ => rfl⟩

theorem HaltFrame.trans {cs : List Command} {s t u : State} (h : HaltFrame cs s t) (h' : HaltFrame cs t u) :
    HaltFrame cs s u where
  v_eq := h'.v_eq.trans h.v_eq
  i_eq := h'.i_eq.trans h.i_eq
  pc_eq := h'.pc_eq.trans h.pc_eq
  sp_eq := h'.sp_eq.trans h.sp_eq
  stack_eq := h'.stack_eq.trans h.stack_eq
  fb_eq := h'.fb_eq.trans h.fb_eq
  draws_eq := h'.draws_eq.trans h.draws_eq
  mem_eq hc := (h'.mem_eq hc).trans (h.mem_eq hc)
  timers_eq hc := ⟨(h'.timers_eq hc).1.trans (h.timers_eq hc).1, (h'.timers_eq hc).2.trans (h.timers_eq hc).2⟩
  key_eq hc := (h'.key_eq hc).trans (h.key_eq hc)

theorem HaltFrame.mono {cs cs' : List Command} {s t : State} (h : HaltFrame cs s t) (hcs : cs ⊆ cs') :
    HaltFrame cs' s t :=
  { h with
    mem_eq := fun hc => h.mem_eq fun bytes hb => hc bytes (hcs hb)
    timers_eq := fun hc => h.timers_eq fun hb => hc (hcs hb)
    key_eq := fun hc => h.key_eq fun k p hb => hc k p (hcs hb) }

/-- Only the result differs. -/
theorem haltFrame_setResult (cs : List Command) (s : State) (r : Result) : HaltFrame cs s (s.setResult r) :=
  ⟨rfl, rfl, rfl, rfl, rfl, rfl, rfl, fun _ => rfl, fun _ => ⟨rfl, rfl⟩, fun _ => rfl⟩

/-- From `s` to `t` the command `c` kept `halted`, the commands after it and the frame of a halted core (R209). -/
def HaltKept (c : Command) (s t : State) : Prop :=
  t.halted = true ∧ t.schedule = s.schedule ∧ HaltFrame [c] s t

theorem haltKept_setResult (c : Command) {s : State} (hs : s.halted = true) (r : Result) :
    HaltKept c s (s.setResult r) :=
  ⟨hs, rfl, haltFrame_setResult [c] s r⟩

/-- A step of a halted core changes its result alone (R91). -/
theorem stepCycle_halted_eq (l : Bool) {s : State} (hs : s.halted = true) :
    stepCycle l s = .next (s.setResult .halted) := by
  rw [stepCycle_of_halted l hs, raise_eq]
  simp only [State.setResult, hs, Bool.true_or]

theorem haltKept_afterLoad (bytes : List Byte) {s : State} (hs : s.halted = true) :
    HaltKept (.loadProgram bytes) s (s.afterLoad bytes) := by
  rcases Nat.lt_or_ge 3584 bytes.length with h | h
  · rw [State.afterLoad_of_gt s bytes h]
    exact haltKept_setResult _ hs _
  · rw [State.afterLoad_of_le s bytes h]
    have hload : ¬ ∀ bs, Command.loadProgram bs ∉ [Command.loadProgram bytes] := fun hn =>
      hn bytes (List.mem_singleton_self _)
    exact ⟨hs, rfl, rfl, rfl, rfl, rfl, rfl, rfl, rfl, fun hn => absurd hn hload, fun _ => ⟨rfl, rfl⟩, fun _ => rfl⟩

theorem haltKept_afterTick {s : State} (hs : s.halted = true) : HaltKept .tickTimers s s.afterTick :=
  ⟨hs, rfl, rfl, rfl, rfl, rfl, rfl, rfl, rfl, fun _ => rfl, fun hn => absurd (List.mem_singleton_self _) hn,
    fun _ => rfl⟩

theorem haltKept_afterSetKey (k : Nat) (p : Bool) {s : State} (hs : s.halted = true) :
    HaltKept (.setKey k p) s (s.afterSetKey k p) := by
  rcases Nat.lt_or_ge k 16 with h | h
  · rw [State.afterSetKey_of_lt s k p h]
    have hset : ¬ ∀ j q, Command.setKey j q ∉ [Command.setKey k p] := fun hn => hn k p (List.mem_singleton_self _)
    exact ⟨hs, rfl, rfl, rfl, rfl, rfl, rfl, rfl, rfl, fun _ => rfl, fun _ => ⟨rfl, rfl⟩, fun hn => absurd hn hset⟩
  · rw [State.afterSetKey_of_ge s k p h]
    exact haltKept_setResult _ hs _

theorem haltKept_afterIsSet (px py : Nat) {s : State} (hs : s.halted = true) :
    HaltKept (.isSet px py) s (s.afterIsSet px py) := by
  obtain ⟨r, hr⟩ := s.afterIsSet_eq_setResult px py
  rw [hr]
  exact haltKept_setResult _ hs r

/-- Every command but construction and `reset` keeps a halted core halted. -/
theorem haltKept_runCommand {c : Command} {s t : State} (hs : s.halted = true) (hc : c.keepsHalt = true)
    (h : runCommand c s = .next t) : HaltKept c s t := by
  cases c with
  | construct fontset => cases hc
  | reset => cases hc
  | step l =>
    cases (stepCycle_halted_eq l hs).symm.trans h
    exact haltKept_setResult _ hs _
  | loadProgram bytes => cases h; exact haltKept_afterLoad bytes hs
  | tickTimers => cases h; exact haltKept_afterTick hs
  | setKey k p => cases h; exact haltKept_afterSetKey k p hs
  | isSet px py => cases h; exact haltKept_afterIsSet px py hs

/-- One step of a core that is halted for good: the schedule loses at most its oldest command, and the frame is that of
the commands scheduled before it. -/
theorem State.HaltedForGood.step {s t : State} (hs : s.HaltedForGood) (h : Machine.step s = .next t) :
    t.halted = true ∧ t.schedule ⊆ s.schedule ∧ HaltFrame s.schedule s t := by
  obtain ⟨hhalt, hkeeps⟩ := hs
  cases hsched : s.schedule with
  | nil =>
    cases (stepCycle_halted_eq false hhalt).symm.trans (step_of_nil hsched ▸ h)
    exact ⟨hhalt, List.subset_nil.mpr hsched, haltFrame_setResult [] s _⟩
  | cons c rest =>
    have hc : c.keepsHalt = true := hkeeps c (hsched ▸ List.mem_cons_self)
    obtain ⟨ht, hts, hframe⟩ :=
      haltKept_runCommand (s := { s with schedule := rest }) hhalt hc (step_of_cons hsched ▸ h)
    have hpop : HaltFrame (c :: rest) s { s with schedule := rest } :=
      ⟨rfl, rfl, rfl, rfl, rfl, rfl, rfl, fun _ => rfl, fun _ => ⟨rfl, rfl⟩, fun _ => rfl⟩
    refine ⟨ht, ?_, hpop.trans (hframe.mono ?_)⟩
    · rw [hts]; exact List.subset_cons_self c rest
    · exact List.cons_subset_cons c (List.nil_subset rest)

/-- A step keeps a core halted for good. -/
theorem State.HaltedForGood.keeps {s t : State} (hs : s.HaltedForGood) (h : Machine.step s = .next t) :
    t.HaltedForGood := by
  obtain ⟨hhalt, hsub, -⟩ := hs.step h
  exact ⟨hhalt, fun c hc => hs.keepsHalt c (hsub hc)⟩

/-- Over any run: by induction on the number of commands, each of which leaves a part of the schedule. -/
theorem State.HaltedForGood.run {n : Nat} {s t : State} (hs : s.HaltedForGood) (h : Machine.run n s = .next t) :
    t.HaltedForGood ∧ HaltFrame s.schedule s t := by
  induction n generalizing s with
  | zero => cases h; exact ⟨hs, HaltFrame.refl _ _⟩
  | succ n ih =>
    unfold Machine.run at h
    split at h
    case h_1 u hu =>
      obtain ⟨-, hsub, hframe⟩ := hs.step hu
      obtain ⟨ht, hrest⟩ := ih (hs.keeps hu) h
      exact ⟨ht, hframe.trans (hrest.mono hsub)⟩
    case h_2 => cases h
    case h_3 => cases h

/-- Settles O12: one step by the case of its command, a run by induction on its length. -/
theorem haltLastsUntilReset : Obligations.HaltLastsUntilReset := by
  refine ⟨fun s t hs h => hs.keeps h, fun n s t hs h => ?_⟩
  obtain ⟨ht, hf⟩ := hs.run h
  exact ⟨ht, hf.v_eq, hf.i_eq, hf.pc_eq, hf.sp_eq, hf.stack_eq, hf.fb_eq, hf.draws_eq, hf.mem_eq, hf.timers_eq,
    hf.key_eq⟩

end Sys2Proof.Machine
end

section
/-! Which instructions write each piece of state, read off the updates. -/

namespace Sys2Proof.Machine

section

variable {s u : State} {i : Instr}

/-- R24. -/
theorem Writes.index_writer (h : Writes s i u) (hne : u.i ≠ s.i) :
    (∃ nnn, i = .ldI nnn) ∨ (∃ x, i = .addI x) ∨ ∃ x, i = .ldFont x := by
  cases h with
  | index w hi => exact hi
  | _ => exact absurd rfl hne

/-- R29. -/
theorem Writes.sp_writer (h : Writes s i u) (hne : u.sp ≠ s.sp) : (∃ nnn, i = .call nnn) ∨ i = .ret := by
  cases h with
  | call nnn => exact .inl ⟨nnn, rfl⟩
  | ret => exact .inr rfl
  | _ => exact absurd rfl hne

/-- R31, with the popped slot kept (log 8). -/
theorem Writes.stack_writer (h : Writes s i u) (hne : u.stack ≠ s.stack) : ∃ nnn, i = .call nnn := by
  cases h with
  | call nnn => exact ⟨nnn, rfl⟩
  | _ => exact absurd rfl hne

/-- R36. -/
theorem Writes.fb_writer (h : Writes s i u) (hne : u.fb ≠ s.fb) : i = .cls ∨ ∃ x y n, i = .drw x y n := by
  cases h with
  | clear => exact .inl rfl
  | draw x y n => exact .inr ⟨x, y, n, rfl⟩
  | _ => exact absurd rfl hne

/-- R51. -/
theorem Writes.mem_writer (h : Writes s i u) (hne : u.mem ≠ s.mem) :
    (∃ x, i = .ldBcd x) ∨ ∃ x, i = .storeRegs x := by
  cases h with
  | memory bs hi => exact hi
  | _ => exact absurd rfl hne

/-- R207. -/
theorem Writes.delay_writer (h : Writes s i u) (hne : u.dt ≠ s.dt) : ∃ x, i = .ldDtVx x := by
  cases h with
  | delay x => exact ⟨x, rfl⟩
  | _ => exact absurd rfl hne

/-- R207. -/
theorem Writes.sound_writer (h : Writes s i u) (hne : u.st ≠ s.st) : ∃ x, i = .ldStVx x := by
  cases h with
  | sound x => exact ⟨x, rfl⟩
  | _ => exact absurd rfl hne

end

/-- Settles O47: each piece of state by the updates that write it; the result and `halted` are none of these pieces. -/
theorem writersOfEachPieceOfState : Obligations.WritersOfEachPieceOfState := by
  intro i s t h
  obtain ⟨u, r, b, hu, rfl⟩ := writes_of_exec h
  exact ⟨hu.index_writer, hu.sp_writer, hu.stack_writer, hu.fb_writer, hu.mem_writer, hu.delay_writer,
    hu.sound_writer⟩

/-- Settles O48: an instruction completes with `Ok` and keeps the three, or raises an error on the state it started
from. -/
theorem instructionsNeverWriteTheLatch : Obligations.InstructionsNeverWriteTheLatch := by
  intro i s t h
  have ha := answers_exec i s
  rw [h] at ha
  generalize ht : Host.Outcome.next t = a at ha
  cases ha with
  | completes u hkey hschedule hhalted =>
    rw [(finish_next_iff u t).mp ht.symm]
    exact ⟨hkey, hschedule, hhalted.trans (Bool.or_false _).symm⟩
  | raises e he =>
    rw [(raise_next_iff e s t).mp ht.symm]
    exact ⟨rfl, rfl, rfl⟩

/-- A register write changes VF only if it names VF. -/
theorem State.eq_vf_of_setReg_ne {s : State} {x : Reg} {b : Byte}
    (hne : (s.setReg x b).reg Reg.vf ≠ s.reg Reg.vf) : x = Reg.vf := by
  by_contra hx
  exact hne (by rw [State.reg_setReg, if_neg (Ne.symm hx)])

/-- A block load changes VF only if it reaches V15. -/
theorem eq_vf_of_loadBlock_ne {m : Memory} {base : Nat} {v : Vector Byte 16} {x : Reg}
    (hne : (loadBlock m base (x.val + 1) v)[Reg.vf] ≠ v[Reg.vf]) : x = Reg.vf := by
  have hreach : 15 < x.val + 1 := by
    by_contra hlt
    exact hne ((getElem_loadBlock m base (x.val + 1) v 15 (by decide)).trans (if_neg hlt))
  exact Fin.ext (by show x.val = 15; omega)

/-- Settles O49: by the updates that write a register, each of which names VF or sets the flag. -/
theorem onlyNamedInstructionsWriteVF : Obligations.OnlyNamedInstructionsWriteVF := by
  intro i s t h hne
  obtain ⟨u, r, b, hu, rfl⟩ := writes_of_exec h
  cases hu with
  | register b hi =>
    obtain rfl := State.eq_vf_of_setReg_ne hne
    obtain ⟨nn, hnn⟩ | hy | hkeys := hi
    · exact .inr (.inr (.inl ⟨nn, hnn.imp_right .inl⟩))
    · exact .inr (.inr (.inr (.inl hy)))
    · exact .inr (.inr (.inr (.inr (hkeys.imp_right .inl))))
  | random x nn b =>
    obtain rfl := State.eq_vf_of_setReg_ne hne
    exact .inr (.inr (.inl ⟨nn, .inr (.inr rfl)⟩))
  | flagged flag b hi => exact .inl ⟨_, hi⟩
  | block x =>
    obtain rfl := eq_vf_of_loadBlock_ne hne
    exact .inr (.inr (.inr (.inr (.inr (.inr rfl)))))
  | draw x y n f flag => exact .inr (.inl ⟨x, y, n, rfl⟩)
  | _ => exact absurd rfl hne

end Sys2Proof.Machine
end

section
/-! The sound timer is written and never read: `exec` commutes with another value in it (R33). -/

namespace Sys2Proof.Machine

/-- The answer with another value in the sound timer. -/
def withSound (b : Byte) : Answer → Answer
  | .next t => .next (t.setSound b)
  | .fault r => .fault r
  | .refused r => .refused r

section

variable (s : State) (b : Byte)

theorem State.accessFault_setSound (len : Nat) : (s.setSound b).accessFault len = s.accessFault len := rfl

theorem State.highestKey_setSound : (s.setSound b).highestKey = s.highestKey := rfl

theorem skipIf_setSound (c : Bool) : skipIf c (s.setSound b) = withSound b (skipIf c s) := by
  cases c
  · rfl
  · rfl

theorem execRet_setSound : execRet (s.setSound b) = withSound b (execRet s) := by
  rcases Nat.eq_zero_or_pos s.sp.val with h | h
  · rw [execRet_of_zero s h, execRet_of_zero (s.setSound b) h]; rfl
  · rw [execRet_of_pos s h, execRet_of_pos (s.setSound b) h]; rfl

theorem execCall_setSound (nnn : Addr) : execCall nnn (s.setSound b) = withSound b (execCall nnn s) := by
  rcases Nat.lt_or_ge s.sp.val 16 with h | h
  · rw [execCall_of_lt s nnn h, execCall_of_lt (s.setSound b) nnn h]; rfl
  · have hfull : s.sp.val = 16 := by omega
    rw [execCall_of_full s nnn hfull, execCall_of_full (s.setSound b) nnn hfull]; rfl

theorem execDrw_setSound (x y : Reg) (n : Nat) : execDrw x y n (s.setSound b) = withSound b (execDrw x y n s) := by
  unfold execDrw
  rw [State.accessFault_setSound]
  cases s.accessFault n with
  | none => rfl
  | some addr => rfl

theorem execLdBcd_setSound (x : Reg) : execLdBcd x (s.setSound b) = withSound b (execLdBcd x s) := by
  unfold execLdBcd
  rw [State.accessFault_setSound]
  cases s.accessFault 3 with
  | none => rfl
  | some addr => rfl

theorem execStoreRegs_setSound (x : Reg) : execStoreRegs x (s.setSound b) = withSound b (execStoreRegs x s) := by
  unfold execStoreRegs
  rw [State.accessFault_setSound]
  cases s.accessFault (x.val + 1) with
  | none => rfl
  | some addr => rfl

theorem execLoadRegs_setSound (x : Reg) : execLoadRegs x (s.setSound b) = withSound b (execLoadRegs x s) := by
  unfold execLoadRegs
  rw [State.accessFault_setSound]
  cases s.accessFault (x.val + 1) with
  | none => rfl
  | some addr => rfl

theorem execSkp_setSound (x : Reg) : execSkp x (s.setSound b) = withSound b (execSkp x s) := by
  unfold execSkp
  rw [State.reg_setSound]
  cases keyIndex (s.reg x) with
  | none => rfl
  | some k => exact skipIf_setSound s b _

theorem execSknp_setSound (x : Reg) : execSknp x (s.setSound b) = withSound b (execSknp x s) := by
  unfold execSknp
  rw [State.reg_setSound]
  cases keyIndex (s.reg x) with
  | none => rfl
  | some k => exact skipIf_setSound s b _

theorem execLdVxKey_setSound (x : Reg) : execLdVxKey x (s.setSound b) = withSound b (execLdVxKey x s) := by
  unfold execLdVxKey
  rw [State.highestKey_setSound]
  cases s.highestKey with
  | none => rfl
  | some k => rfl

/-- Every instruction but Fx18 does the same with another value in the sound timer, and leaves that value. -/
theorem exec_setSound (i : Instr) (hi : ∀ x, i ≠ .ldStVx x) : exec i (s.setSound b) = withSound b (exec i s) := by
  cases i with
  | ldStVx x => exact absurd rfl (hi x)
  | ret => exact execRet_setSound s b
  | call nnn => exact execCall_setSound s b nnn
  | seByte x nn => exact skipIf_setSound s b _
  | sneByte x nn => exact skipIf_setSound s b _
  | seReg x y => exact skipIf_setSound s b _
  | sneReg x y => exact skipIf_setSound s b _
  | drw x y n => exact execDrw_setSound s b x y n
  | skp x => exact execSkp_setSound s b x
  | sknp x => exact execSknp_setSound s b x
  | ldVxKey x => exact execLdVxKey_setSound s b x
  | ldBcd x => exact execLdBcd_setSound s b x
  | storeRegs x => exact execStoreRegs_setSound s b x
  | loadRegs x => exact execLoadRegs_setSound s b x
  | _ => rfl

end

/-- Settles O50: Fx18 overwrites the other value, every other instruction carries it along. -/
theorem soundTimerIsNeverRead : Obligations.SoundTimerIsNeverRead := by
  intro i s t b h
  constructor
  · intro hi
    exact (exec_setSound s b i hi).trans (congrArg (withSound b) h)
  · rintro x rfl
    exact h

end Sys2Proof.Machine
end

section
/-! Memory byte by byte (20_memory.md): a read after a write, and that the canonical form is determined by its reads. -/

namespace Sys2Proof.Machine

/-- Settles O15: the laws of one write. -/
theorem readReturnsTheLastWrite : Obligations.ReadReturnsTheLastWrite := fun _ a b v hm ha =>
  ⟨Memory.wf_write hm ha v, Memory.read_write hm a b v⟩

/-- An entry is never below all entries of a memory that reads the same: its address would read as unlisted there. -/
theorem Memory.le_of_wfFrom_cons_of_read_eq {m m' : Memory} {low low' a : Nat} {v : Byte}
    (hm : Memory.wfFrom low ((a, v) :: m) = true) (hm' : Memory.wfFrom low' m' = true)
    (h : ∀ b, b < 0x1000 → Memory.read ((a, v) :: m) b = m'.read b) : low' ≤ a := by
  obtain ⟨-, ha, hv, -⟩ := (Memory.wfFrom_cons low a v m).mp hm
  by_contra hlt
  have hread := h a ha
  rw [Memory.read, if_pos rfl, Memory.read_of_wfFrom hm' (by omega)] at hread
  exact hv hread

/-- Two memories that read the same and list the same address first hold the same byte there, and their other entries
read the same. -/
theorem Memory.read_eq_of_cons_read_eq {m m' : Memory} {a : Nat} {v w : Byte} (ha : a < 0x1000)
    (hm : Memory.wfFrom (a + 1) m = true) (hm' : Memory.wfFrom (a + 1) m' = true)
    (h : ∀ b, b < 0x1000 → Memory.read ((a, v) :: m) b = Memory.read ((a, w) :: m') b) :
    v = w ∧ ∀ b, b < 0x1000 → m.read b = m'.read b := by
  refine ⟨by simpa [Memory.read] using h a ha, fun b hb => ?_⟩
  by_cases hba : b = a
  · rw [Memory.read_of_wfFrom hm (by omega), Memory.read_of_wfFrom hm' (by omega)]
  · simpa [Memory.read, hba] using h b hb

/-- Equal reads of canonical memories, from lower bounds of their entries. -/
theorem Memory.eq_of_read_eq {m m' : Memory} {low low' : Nat} (hm : Memory.wfFrom low m = true)
    (hm' : Memory.wfFrom low' m' = true) (h : ∀ a, a < 0x1000 → m.read a = m'.read a) : m = m' := by
  induction m generalizing m' low low' with
  | nil =>
    cases m' with
    | nil => rfl
    | cons c' m' =>
      have hle : c'.1 + 1 ≤ c'.1 :=
        Memory.le_of_wfFrom_cons_of_read_eq hm' (m' := []) rfl (fun b hb => (h b hb).symm)
      omega
  | cons c m ih =>
    obtain ⟨a, v⟩ := c
    obtain ⟨-, ha, hv, htail⟩ := (Memory.wfFrom_cons low a v m).mp hm
    cases m' with
    | nil =>
      have hle : a + 1 ≤ a := Memory.le_of_wfFrom_cons_of_read_eq hm (m' := []) rfl h
      omega
    | cons c' m' =>
      obtain ⟨b, w⟩ := c'
      obtain ⟨-, hb, hw, htail'⟩ := (Memory.wfFrom_cons low' b w m').mp hm'
      have hba : b ≤ a := Memory.le_of_wfFrom_cons_of_read_eq hm
        ((Memory.wfFrom_cons b b w m').mpr ⟨le_rfl, hb, hw, htail'⟩) h
      have hab : a ≤ b := Memory.le_of_wfFrom_cons_of_read_eq hm'
        ((Memory.wfFrom_cons a a v m).mpr ⟨le_rfl, ha, hv, htail⟩) (fun c hc => (h c hc).symm)
      obtain rfl : a = b := le_antisymm hab hba
      obtain ⟨rfl, hrest⟩ := Memory.read_eq_of_cons_read_eq ha htail htail' h
      rw [ih htail htail' hrest]

/-- Settles O16: the canonical form is the one sorted list of the bytes that do not read as unlisted. -/
theorem equalReadsMeanEqualMemories : Obligations.EqualReadsMeanEqualMemories := fun _ _ hm hm' h =>
  Memory.eq_of_read_eq hm hm' h

end Sys2Proof.Machine
end

section
/-! A store seen by the next fetch (R65): the registers of Fx55 as bytes of memory, and the word two bytes make. -/

namespace Sys2Proof.Machine

/-- Fx55 returns `Ok` only for a block in bounds, and has then stored it (R57, R144). -/
theorem execStoreRegs_ok {s t : State} {x : Reg} (h : execStoreRegs x s = .next t) (ht : t.result = .ok) :
    s.i.toNat + (x.val + 1) ≤ 0x1000 ∧ t.mem = s.mem.writeBytes s.i.toNat (s.regBlock (x.val + 1)) := by
  rcases Nat.lt_or_ge 0x1000 (s.i.toNat + (x.val + 1)) with hgt | hle
  · rw [execStoreRegs_of_gt s x hgt, raise_next_iff] at h
    subst h
    cases ht
  · rw [execStoreRegs_of_le s x hle, finish_next_iff] at h
    exact ⟨hle, by rw [h]; rfl⟩

/-- A byte of the block that Fx55 stores is the register of its place (R144). -/
theorem State.read_writeBytes_regBlock {s : State} {len j : Nat} (hm : s.mem.wf = true) (hlen : len ≤ 16)
    (hle : s.i.toNat + len ≤ 0x1000) (hj : j < len) :
    (s.mem.writeBytes s.i.toNat (s.regBlock len)).read (s.i.toNat + j) = s.v[j] := by
  have hl : (s.regBlock len).length = len := s.length_regBlock len hlen
  rw [Memory.read_writeBytes hm (by omega), dif_pos (by omega)]
  simp only [Nat.add_sub_cancel_left]
  exact s.getElem_regBlock len j _ _

/-- The word at PC as a number: two bytes fill 16 bits exactly (R55). -/
theorem State.toNat_wordAtPc (s : State) :
    s.wordAtPc.toNat = (s.mem.read s.pc.toNat).toNat * 256 + (s.mem.read (s.pc.toNat + 1)).toNat := by
  have hhi := (s.mem.read s.pc.toNat).isLt
  have hlo := (s.mem.read (s.pc.toNat + 1)).isLt
  rw [State.wordAtPc, BitVec.toNat_ofNat]
  omega

/-- Settles O17: a stored block is in bounds, so I + k does not wrap and both bytes of the word are in the block. -/
theorem storedRegistersAreFetched : Obligations.StoredRegistersAreFetched := by
  intro s t x k hk hm h ht
  obtain ⟨hle, hmem⟩ := execStoreRegs_ok (h : execStoreRegs x s = .next t) ht
  have hx := x.isLt
  have hpc : (s.i + BitVec.ofNat 16 k).toNat = s.i.toNat + k := by
    rw [BitVec.toNat_add, BitVec.toNat_ofNat]
    omega
  rw [State.toNat_wordAtPc, State.setPc_pc, State.setPc_mem, hpc, hmem, Nat.add_assoc,
    State.read_writeBytes_regBlock hm (by omega) hle (by omega),
    State.read_writeBytes_regBlock hm (by omega) hle (by omega)]

end Sys2Proof.Machine
end

section
/-! Accesses that leave memory: a block through I (R57) and a fetch (R58). -/

namespace Sys2Proof.Machine

/-- An abort-class error is the result, sets `halted` and changes nothing else (R195, R198). -/
theorem raise_of_aborts (s : State) {e : Result} (he : e.aborts = true) :
    ∃ t, raise e s = .next t ∧ t.result = e ∧ t.halted = true ∧ ChangesOnlyList [.halted] s t :=
  ⟨_, raise_eq e s, rfl, by simp [he], changesOnly_raise s e (fun _ => List.mem_singleton_self _)⟩

/-- The format XKK with its group and low byte as one number (R73). -/
theorem formatXKK_eq_ofNat (g : Nat) (x : Reg) (kk : Nat) :
    formatXKK g x kk = BitVec.ofNat 16 (g * 4096 + kk + x.val * 256) := by
  rw [formatXKK, Nat.add_right_comm]

/-- Settles O37: each of the four checks its whole block before any access and raises an abort-class error with its own
word. -/
theorem blockOutOfBoundsAborts : Obligations.BlockOutOfBoundsAborts := by
  intro s x y n raw i h
  suffices hraise : exec i s =
      raise (.memoryOutOfBounds (BitVec.ofNat 16 raw) (BitVec.ofNat 17 (max s.i.toNat 0x1000))) s by
    rw [hraise]
    exact raise_of_aborts s rfl
  rcases h with ⟨rfl, rfl, hi⟩ | ⟨rfl, rfl, hi⟩ | ⟨rfl, rfl, hi⟩ | ⟨rfl, rfl, hn, -, hi⟩
  · exact (execLdBcd_of_gt s x (by omega)).trans (by rw [encode, formatXKK_eq_ofNat])
  · exact (execStoreRegs_of_gt s x (by omega)).trans (by rw [encode, formatXKK_eq_ofNat])
  · exact (execLoadRegs_of_gt s x (by omega)).trans (by rw [encode, formatXKK_eq_ofNat])
  · exact (execDrw_of_gt s x y n hn (by omega)).trans (by rw [encode, formatXYN])

/-- Settles O8: the step cycle raises `PcOutOfBounds` before it advances PC, and that error is not of the abort class. -/
theorem fetchBeyondMemoryIsReported : Obligations.FetchBeyondMemoryIsReported := by
  intro s rest hnext hhalted hpc
  obtain ⟨l, hstep⟩ := step_of_nextIsStep hnext
  have hraise := stepCycle_of_unfetchable l (s := { s with schedule := rest }) hhalted hpc
  exact ⟨_, hstep.trans hraise, rfl, changesOnly_raise _ _ (fun h => nomatch h)⟩

end Sys2Proof.Machine
end

section
/-! The encoding as a bijection between the well-formed instructions and the words that decode (R76, R77, R81): each
instruction's word decodes back to it, and what a row makes of a word it accepts encodes back to that word. -/

namespace Sys2Proof.Laws

/-- The word of a well-formed instruction decodes to it, put together from the lemma of each instruction. -/
theorem decodeWord_encode : ∀ i : Instr, RoundTrip.Statement i
  | .cls => RoundTrip.cls
  | .ret => RoundTrip.ret
  | .jp nnn => RoundTrip.jp nnn
  | .call nnn => RoundTrip.call nnn
  | .seByte x nn => RoundTrip.seByte x nn
  | .sneByte x nn => RoundTrip.sneByte x nn
  | .seReg x y => RoundTrip.seReg x y
  | .ldByte x nn => RoundTrip.ldByte x nn
  | .addByte x nn => RoundTrip.addByte x nn
  | .ldReg x y => RoundTrip.ldReg x y
  | .orReg x y => RoundTrip.orReg x y
  | .andReg x y => RoundTrip.andReg x y
  | .xorReg x y => RoundTrip.xorReg x y
  | .addReg x y => RoundTrip.addReg x y
  | .subReg x y => RoundTrip.subReg x y
  | .shr x y => RoundTrip.shr x y
  | .subnReg x y => RoundTrip.subnReg x y
  | .shl x y => RoundTrip.shl x y
  | .sneReg x y => RoundTrip.sneReg x y
  | .ldI nnn => RoundTrip.ldI nnn
  | .jpV0 nnn => RoundTrip.jpV0 nnn
  | .rnd x nn => RoundTrip.rnd x nn
  | .drw x y n => RoundTrip.drw x y n
  | .skp x => RoundTrip.skp x
  | .sknp x => RoundTrip.sknp x
  | .ldVxDt x => RoundTrip.ldVxDt x
  | .ldVxKey x => RoundTrip.ldVxKey x
  | .ldDtVx x => RoundTrip.ldDtVx x
  | .ldStVx x => RoundTrip.ldStVx x
  | .addI x => RoundTrip.addI x
  | .ldFont x => RoundTrip.ldFont x
  | .ldBcd x => RoundTrip.ldBcd x
  | .storeRegs x => RoundTrip.storeRegs x
  | .loadRegs x => RoundTrip.loadRegs x

/-- Settles O2: the two bytes of an instruction, joined again, are its word, and that word decodes back. -/
theorem encodedInstructionDecodesBack : Obligations.EncodedInstructionDecodesBack := by
  intro i rest hwf
  have hword : decodeWord (wordOfBytes (highByte (encode i)) (lowByte (encode i))) = .ok i := by
    rw [wordOfBytes_highByte_lowByte]
    exact decodeWord_encode i hwf
  exact decode_cons_cons _ _ rest i hword

end Sys2Proof.Laws

namespace Sys2Proof

/-! The number each field of a word stands for (R71). -/

theorem val_fieldX (op : Word) : (fieldX op).val = op.toNat / 256 % 16 := rfl
theorem val_fieldY (op : Word) : (fieldY op).val = op.toNat / 16 % 16 := rfl
theorem toNat_fieldNN (op : Word) : (fieldNN op).toNat = op.toNat % 256 := BitVec.toNat_ofNat _ _
theorem toNat_fieldNNN (op : Word) : (fieldNNN op).toNat = op.toNat % 4096 := BitVec.toNat_ofNat _ _

theorem fieldN_lt (op : Word) : fieldN op < 16 := Nat.mod_lt _ (by decide)

/-! The fixed bits of a word, read off its mask test: the group nibble, and the low nibble or byte (R73). -/

theorem group_of_and_F000 {g : Nat} (hg : g < 16) {op : Word} (h : op &&& 0xF000 = BitVec.ofNat 16 (g * 4096)) :
    op.toNat / 4096 = g := by
  rw [and_F000_eq, BitVec.toNat_ofNat] at h
  omega

theorem group_low_of_and_F00F {g n : Nat} (hg : g < 16) (hn : n < 16) {op : Word}
    (h : op &&& 0xF00F = BitVec.ofNat 16 (g * 4096 + n)) : op.toNat / 4096 = g ∧ op.toNat % 16 = n := by
  rw [and_F00F_eq, BitVec.toNat_ofNat] at h
  omega

theorem group_low_of_and_F0FF {g kk : Nat} (hg : g < 16) (hk : kk < 256) {op : Word}
    (h : op &&& 0xF0FF = BitVec.ofNat 16 (g * 4096 + kk)) : op.toNat / 4096 = g ∧ op.toNat % 256 = kk := by
  rw [and_F0FF_eq, BitVec.toNat_ofNat] at h
  omega

/-- A row whose format keeps every bit of a word: what it makes of a word it accepts is a well-formed instruction, and
encodes to that word (R81). -/
def OpcodeRow.Faithful (r : OpcodeRow) : Prop :=
  ∀ op : Word, r.accepts op = true → (r.build op).wellFormed = true ∧ encode (r.build op) = op

/-! One lemma per format (R73): its fixed bits and its fields are the whole word. -/

theorem OpcodeRow.Faithful.of_fixed (i : Instr) (hi : i.wellFormed = true) :
    OpcodeRow.Faithful ⟨encode i, 0xFFFF, fun _ => i⟩ := by
  intro op ha
  rw [OpcodeRow.accepts_iff, and_FFFF_eq, BitVec.toNat_inj] at ha
  exact ⟨hi, ha.symm⟩

theorem OpcodeRow.Faithful.of_formatNNN (g : Nat) (hg : g < 16) (f : Addr → Instr)
    (hf : ∀ nnn, (f nnn).wellFormed = true ∧ encode (f nnn) = formatNNN g nnn) :
    OpcodeRow.Faithful ⟨BitVec.ofNat 16 (g * 4096), 0xF000, fun op => f (fieldNNN op)⟩ := by
  intro op ha
  have hgroup := group_of_and_F000 hg ((OpcodeRow.accepts_iff _ op).mp ha)
  refine ⟨(hf _).1, (hf _).2.trans (BitVec.eq_of_toNat_eq ?_)⟩
  rw [toNat_formatNNN g hg, toNat_fieldNNN]
  omega

theorem OpcodeRow.Faithful.of_formatXNN (g : Nat) (hg : g < 16) (f : Reg → Byte → Instr)
    (hf : ∀ x nn, (f x nn).wellFormed = true ∧ encode (f x nn) = formatXNN g x nn) :
    OpcodeRow.Faithful ⟨BitVec.ofNat 16 (g * 4096), 0xF000, fun op => f (fieldX op) (fieldNN op)⟩ := by
  intro op ha
  have hgroup := group_of_and_F000 hg ((OpcodeRow.accepts_iff _ op).mp ha)
  refine ⟨(hf _ _).1, (hf _ _).2.trans (BitVec.eq_of_toNat_eq ?_)⟩
  rw [toNat_formatXNN g hg, val_fieldX, toNat_fieldNN]
  omega

theorem OpcodeRow.Faithful.of_formatXYK (g n : Nat) (hg : g < 16) (hn : n < 16) (f : Reg → Reg → Instr)
    (hf : ∀ x y, (f x y).wellFormed = true ∧ encode (f x y) = formatXYN g x y n) :
    OpcodeRow.Faithful ⟨BitVec.ofNat 16 (g * 4096 + n), 0xF00F, fun op => f (fieldX op) (fieldY op)⟩ := by
  intro op ha
  obtain ⟨hgroup, hlow⟩ := group_low_of_and_F00F hg hn ((OpcodeRow.accepts_iff _ op).mp ha)
  refine ⟨(hf _ _).1, (hf _ _).2.trans (BitVec.eq_of_toNat_eq ?_)⟩
  rw [toNat_formatXYN g hg _ _ n hn, val_fieldX, val_fieldY]
  omega

theorem OpcodeRow.Faithful.of_formatXYN (g : Nat) (hg : g < 16) (f : Reg → Reg → Nat → Instr)
    (hf : ∀ x y n, n < 16 → (f x y n).wellFormed = true ∧ encode (f x y n) = formatXYN g x y n) :
    OpcodeRow.Faithful
      ⟨BitVec.ofNat 16 (g * 4096), 0xF000, fun op => f (fieldX op) (fieldY op) (fieldN op)⟩ := by
  intro op ha
  have hgroup := group_of_and_F000 hg ((OpcodeRow.accepts_iff _ op).mp ha)
  have hn := fieldN_lt op
  refine ⟨(hf _ _ _ hn).1, (hf _ _ _ hn).2.trans (BitVec.eq_of_toNat_eq ?_)⟩
  rw [toNat_formatXYN g hg _ _ _ hn, val_fieldX, val_fieldY, fieldN]
  omega

theorem OpcodeRow.Faithful.of_formatXKK (g kk : Nat) (hg : g < 16) (hk : kk < 256) (f : Reg → Instr)
    (hf : ∀ x, (f x).wellFormed = true ∧ encode (f x) = formatXKK g x kk) :
    OpcodeRow.Faithful ⟨BitVec.ofNat 16 (g * 4096 + kk), 0xF0FF, fun op => f (fieldX op)⟩ := by
  intro op ha
  obtain ⟨hgroup, hlow⟩ := group_low_of_and_F0FF hg hk ((OpcodeRow.accepts_iff _ op).mp ha)
  refine ⟨(hf _).1, (hf _).2.trans (BitVec.eq_of_toNat_eq ?_)⟩
  rw [toNat_formatXKK g hg _ kk hk, val_fieldX]
  omega

/-! The rows of the table, each by the lemma of its format (R77). -/

theorem rowsControl_faithful : ∀ r ∈ rowsControl, r.Faithful := by
  simp only [rowsControl, List.forall_mem_cons]
  exact
   ⟨.of_fixed .cls rfl,
    .of_fixed .ret rfl,
    .of_formatNNN 0x1 (by decide) .jp fun _ => ⟨rfl, rfl⟩,
    .of_formatNNN 0x2 (by decide) .call fun _ => ⟨rfl, rfl⟩,
    .of_formatXNN 0x3 (by decide) .seByte fun _ _ => ⟨rfl, rfl⟩,
    .of_formatXNN 0x4 (by decide) .sneByte fun _ _ => ⟨rfl, rfl⟩,
    .of_formatXYK 0x5 0x0 (by decide) (by decide) .seReg fun _ _ => ⟨rfl, rfl⟩,
    .of_formatXNN 0x6 (by decide) .ldByte fun _ _ => ⟨rfl, rfl⟩,
    .of_formatXNN 0x7 (by decide) .addByte fun _ _ => ⟨rfl, rfl⟩,
    List.forall_mem_nil _⟩

theorem rowsRegister_faithful : ∀ r ∈ rowsRegister, r.Faithful := by
  simp only [rowsRegister, List.forall_mem_cons]
  exact
   ⟨.of_formatXYK 0x8 0x0 (by decide) (by decide) .ldReg fun _ _ => ⟨rfl, rfl⟩,
    .of_formatXYK 0x8 0x1 (by decide) (by decide) .orReg fun _ _ => ⟨rfl, rfl⟩,
    .of_formatXYK 0x8 0x2 (by decide) (by decide) .andReg fun _ _ => ⟨rfl, rfl⟩,
    .of_formatXYK 0x8 0x3 (by decide) (by decide) .xorReg fun _ _ => ⟨rfl, rfl⟩,
    .of_formatXYK 0x8 0x4 (by decide) (by decide) .addReg fun _ _ => ⟨rfl, rfl⟩,
    .of_formatXYK 0x8 0x5 (by decide) (by decide) .subReg fun _ _ => ⟨rfl, rfl⟩,
    .of_formatXYK 0x8 0x6 (by decide) (by decide) .shr fun _ _ => ⟨rfl, rfl⟩,
    .of_formatXYK 0x8 0x7 (by decide) (by decide) .subnReg fun _ _ => ⟨rfl, rfl⟩,
    .of_formatXYK 0x8 0xE (by decide) (by decide) .shl fun _ _ => ⟨rfl, rfl⟩,
    .of_formatXYK 0x9 0x0 (by decide) (by decide) .sneReg fun _ _ => ⟨rfl, rfl⟩,
    List.forall_mem_nil _⟩

theorem rowsIndex_faithful : ∀ r ∈ rowsIndex, r.Faithful := by
  simp only [rowsIndex, List.forall_mem_cons]
  exact
   ⟨.of_formatNNN 0xA (by decide) .ldI fun _ => ⟨rfl, rfl⟩,
    .of_formatNNN 0xB (by decide) .jpV0 fun _ => ⟨rfl, rfl⟩,
    .of_formatXNN 0xC (by decide) .rnd fun _ _ => ⟨rfl, rfl⟩,
    .of_formatXYN 0xD (by decide) .drw fun _ _ _ hn => ⟨decide_eq_true hn, rfl⟩,
    .of_formatXKK 0xE 0x9E (by decide) (by decide) .skp fun _ => ⟨rfl, rfl⟩,
    .of_formatXKK 0xE 0xA1 (by decide) (by decide) .sknp fun _ => ⟨rfl, rfl⟩,
    List.forall_mem_nil _⟩

theorem rowsMisc_faithful : ∀ r ∈ rowsMisc, r.Faithful := by
  simp only [rowsMisc, List.forall_mem_cons]
  exact
   ⟨.of_formatXKK 0xF 0x07 (by decide) (by decide) .ldVxDt fun _ => ⟨rfl, rfl⟩,
    .of_formatXKK 0xF 0x0A (by decide) (by decide) .ldVxKey fun _ => ⟨rfl, rfl⟩,
    .of_formatXKK 0xF 0x15 (by decide) (by decide) .ldDtVx fun _ => ⟨rfl, rfl⟩,
    .of_formatXKK 0xF 0x18 (by decide) (by decide) .ldStVx fun _ => ⟨rfl, rfl⟩,
    .of_formatXKK 0xF 0x1E (by decide) (by decide) .addI fun _ => ⟨rfl, rfl⟩,
    .of_formatXKK 0xF 0x29 (by decide) (by decide) .ldFont fun _ => ⟨rfl, rfl⟩,
    .of_formatXKK 0xF 0x33 (by decide) (by decide) .ldBcd fun _ => ⟨rfl, rfl⟩,
    .of_formatXKK 0xF 0x55 (by decide) (by decide) .storeRegs fun _ => ⟨rfl, rfl⟩,
    .of_formatXKK 0xF 0x65 (by decide) (by decide) .loadRegs fun _ => ⟨rfl, rfl⟩,
    List.forall_mem_nil _⟩

theorem opcodeRows_faithful : ∀ r ∈ opcodeRows, r.Faithful := by
  simp only [opcodeRows, List.forall_mem_append]
  exact ⟨⟨⟨rowsControl_faithful, rowsRegister_faithful⟩, rowsIndex_faithful⟩, rowsMisc_faithful⟩

/-- Settles O3: the instruction was made by a row that accepts the word, and every row is faithful. -/
theorem decodedWordEncodesBack : Obligations.DecodedWordEncodesBack := by
  intro w i h
  obtain ⟨r, hr, ha, rfl⟩ := (decodeWord_ok_iff w i).mp h
  exact opcodeRows_faithful r hr w ha

end Sys2Proof
end

section
/-! The table of invalid words (R79) against the opcode table (R77): which words some row accepts, and that no word is
accepted twice (R81). -/

namespace Sys2Proof

/-- Two rows at different places accept no common word (R81). -/
theorem not_both_accept_of_lt {w : Word} {j k : Nat} (hjk : j < k) (hk : k < opcodeRows.length)
    (haj : opcodeRows[j].accepts w = true) (hak : opcodeRows[k].accepts w = true) : False :=
  OpcodeRow.not_both (List.pairwise_iff_getElem.mp opcodeRows_pairwise j k (hjk.trans hk) hk hjk) haj hak

/-- Settles O4: of two different places one is earlier, and its row fixes a common bit to another value. -/
theorem atMostOneRowAccepts : Obligations.AtMostOneRowAccepts := by
  intro w j k hj hk haj hak
  rcases Nat.lt_trichotomy j k with hlt | heq | hgt
  · exact (not_both_accept_of_lt hlt hk haj hak).elim
  · exact heq
  · exact (not_both_accept_of_lt hgt hj hak haj).elim

/-- "Some row of the list accepts the word" (R76). -/
def Matched (rows : List OpcodeRow) (w : Word) : Prop := ∃ r ∈ rows, r.accepts w = true

theorem matched_cons (r : OpcodeRow) (rows : List OpcodeRow) (w : Word) :
    Matched (r :: rows) w ↔ w &&& r.mask = r.pattern ∨ Matched rows w := by
  simp [Matched]

theorem matched_nil (w : Word) : ¬ Matched [] w := by simp [Matched]

theorem matched_append (rows rows' : List OpcodeRow) (w : Word) :
    Matched (rows ++ rows') w ↔ Matched rows w ∨ Matched rows' w := by
  simp [Matched, or_and_right, exists_or]

/-! The words each part of the table accepts, by group nibble and low bits. -/

theorem matched_rowsControl_iff (w : Word) :
    Matched rowsControl w ↔ (w.toNat / 4096 = 0x0 ∧ (w.toNat = 0x00E0 ∨ w.toNat = 0x00EE)) ∨
      w.toNat / 4096 ∈ [0x1, 0x2, 0x3, 0x4, 0x6, 0x7] ∨ (w.toNat / 4096 = 0x5 ∧ w.toNat % 16 = 0) := by
  simp only [rowsControl, matched_cons, matched_nil, and_F000_eq, and_F00F_eq, and_FFFF_eq, BitVec.reduceToNat,
    List.mem_cons, List.not_mem_nil, or_false]
  omega

theorem matched_rowsRegister_iff (w : Word) :
    Matched rowsRegister w ↔
      (w.toNat / 4096 = 0x8 ∧ w.toNat % 16 ∈ [0x0, 0x1, 0x2, 0x3, 0x4, 0x5, 0x6, 0x7, 0xE]) ∨
      (w.toNat / 4096 = 0x9 ∧ w.toNat % 16 = 0) := by
  simp only [rowsRegister, matched_cons, matched_nil, and_F00F_eq, BitVec.reduceToNat, List.mem_cons,
    List.not_mem_nil, or_false]
  omega

theorem matched_rowsIndex_iff (w : Word) :
    Matched rowsIndex w ↔
      w.toNat / 4096 ∈ [0xA, 0xB, 0xC, 0xD] ∨ (w.toNat / 4096 = 0xE ∧ w.toNat % 256 ∈ [0x9E, 0xA1]) := by
  simp only [rowsIndex, matched_cons, matched_nil, and_F000_eq, and_F0FF_eq, BitVec.reduceToNat, List.mem_cons,
    List.not_mem_nil, or_false]
  omega

theorem matched_rowsMisc_iff (w : Word) :
    Matched rowsMisc w ↔
      w.toNat / 4096 = 0xF ∧ w.toNat % 256 ∈ [0x07, 0x0A, 0x15, 0x18, 0x1E, 0x29, 0x33, 0x55, 0x65] := by
  simp only [rowsMisc, matched_cons, matched_nil, and_F0FF_eq, BitVec.reduceToNat, List.mem_cons,
    List.not_mem_nil, or_false]
  omega

theorem decodeWord_of_matched {w : Word} (h : Matched opcodeRows w) : ∃ i, decodeWord w = .ok i := by
  obtain ⟨r, hr, ha⟩ := h
  exact ⟨_, decodeWord_of_mem hr ha⟩

theorem decodeWord_of_not_matched {w : Word} (h : ¬ Matched opcodeRows w) :
    decodeWord w = .error (.unknownOpcode w) :=
  (decodeWord_error_iff w _).mpr ⟨rfl, fun r hr => Bool.eq_false_of_not_eq_true fun ha => h ⟨r, hr, ha⟩⟩

/-- Settles O5: a word is invalid exactly if no part of the table accepts it, group by group. -/
theorem invalidWordsAreExactlyThoseListed : Obligations.InvalidWordsAreExactlyThoseListed := by
  intro w n invalid
  have hgroup : w.toNat / 4096 < 16 := by omega
  have hlow : n % 16 ∈ [0x8, 0x9, 0xA, 0xB, 0xC, 0xD, 0xF] ↔
      n % 16 ∉ [0x0, 0x1, 0x2, 0x3, 0x4, 0x5, 0x6, 0x7, 0xE] := by
    simp only [List.mem_cons, List.not_mem_nil, or_false]
    omega
  have hinvalid : invalid ↔ ¬ Matched opcodeRows w := by
    simp only [opcodeRows, matched_append, matched_rowsControl_iff, matched_rowsRegister_iff, matched_rowsIndex_iff,
      matched_rowsMisc_iff, invalid, hlow, n]
    -- For a fixed group nibble each side says the same of the low bits; in group 8 this is `hlow`.
    generalize w.toNat / 4096 = g at hgroup ⊢
    interval_cases g
    all_goals simp
  exact ⟨fun h => decodeWord_of_not_matched (hinvalid.mp h),
    fun h => decodeWord_of_matched (not_not.mp (mt hinvalid.mpr h))⟩

/-- Settles O1: each word runs through the table. -/
theorem sampleWordsDecode : Obligations.SampleWordsDecode := by
  unfold Obligations.SampleWordsDecode
  decide

end Sys2Proof
end

section
/-! The `step` command (40_step_cycle.md): which instruction it runs, a step of a halted core, that every command answers,
and what an instruction that answers an error has changed. -/

namespace Sys2Proof.Machine

/-- Settles O6: the step cycle decodes the word at PC, and the schedule it leaves is no part of the fetch. -/
theorem stepRunsTheDecodedInstruction : Obligations.StepRunsTheDecodedInstruction := by
  intro s i logging rest hhalted hpc hdecode
  refine ⟨fun hsched => ?_, fun hsched => ?_⟩
  · exact (step_of_nil hsched).trans (stepCycle_of_decoded false hhalted hpc hdecode)
  · exact (step_of_cons hsched).trans
      (stepCycle_of_decoded logging (s := { s with schedule := rest }) hhalted hpc hdecode)

/-- Settles O7: the step cycle of a halted core writes the result alone. -/
theorem haltedStepChangesNothing : Obligations.HaltedStepChangesNothing := by
  intro s rest hnext hhalted
  obtain ⟨l, hstep⟩ := step_of_nextIsStep hnext
  have hcycle := stepCycle_halted_eq l (s := { s with schedule := rest }) hhalted
  exact ⟨_, hstep.trans hcycle, rfl, changesOnly_setResult _ _ .halted⟩

/-- What a meaning can answer, as equations: a completion or an error raised from the starting state (R94). -/
theorem Answers.eq_finish_or_raise {s : State} {a : Answer} (h : Answers s a) :
    (∃ u, a = finish u) ∨ ∃ e, a = raise e s := by
  cases h with
  | completes u => exact .inl ⟨u, rfl⟩
  | raises e => exact .inr ⟨e, rfl⟩

/-- An instruction answers a next state, whether it completes or raises an error. -/
theorem exec_eq_next (i : Instr) (s : State) : ∃ t, exec i s = .next t := by
  rcases (answers_exec i s).eq_finish_or_raise with ⟨u, hexec⟩ | ⟨e, hexec⟩
  · exact ⟨_, hexec.trans (finish_eq u)⟩
  · exact ⟨_, hexec.trans (raise_eq e s)⟩

/-- Each of the four ends of the step cycle is a next state (R95). -/
theorem stepCycle_eq_next (l : Bool) (s : State) : ∃ t, stepCycle l s = .next t := by
  rcases stepCycle_cases l s with ⟨-, hc⟩ | ⟨-, -, hc⟩ | ⟨-, -, hc⟩ | ⟨-, -, i, -, hc⟩
  · exact ⟨_, hc⟩
  · exact ⟨_, hc⟩
  · exact ⟨_, hc⟩
  · rw [hc]; exact exec_eq_next i s.advancePc

/-- Only the `step` command can run an instruction, so the other commands answer at once. -/
theorem runCommand_eq_next (c : Command) (s : State) : ∃ t, runCommand c s = .next t := by
  cases c with
  | step l => exact stepCycle_eq_next l s
  | _ => exact ⟨_, rfl⟩

/-- Settles O10: the next command is a step, or the oldest of the schedule. -/
theorem everyStepAnswersANextState : Obligations.EveryStepAnswersANextState := by
  intro s
  cases hsched : s.schedule with
  | nil => rw [step_of_nil hsched]; exact stepCycle_eq_next false s
  | cons c rest => rw [step_of_cons hsched]; exact runCommand_eq_next c _

/-- Settles O11: an instruction that completes returns Ok, so any other result was raised, from the state the instruction
started in. -/
theorem instructionErrorsArePrecise : Obligations.InstructionErrorsArePrecise := by
  intro i s t h hresult
  rcases (answers_exec i s).eq_finish_or_raise with ⟨u, hexec⟩ | ⟨e, hexec⟩
  · rw [hexec, finish_next_iff] at h
    exact absurd (congrArg State.result h) hresult
  · rw [hexec, raise_next_iff] at h
    subst h
    rfl

end Sys2Proof.Machine
end

section
/-! A self-jump (R99): 1nnn whose target is its own address, which leaves the state as the step found it. -/

namespace Sys2Proof.Machine

section
variable {s : State} (hs : s.ReadyToFetch) (hw : s.wordAtPc.toNat = 0x1000 + s.pc.toNat)
include hs hw

/-- The word 0x1000 + a is the encoding of the jump to a (R102). -/
theorem State.ReadyToFetch.decodeWord_selfJump : decodeWord s.wordAtPc = .ok (.jp (s.pc.setWidth 12)) := by
  have hpc := hs.pc_le
  have hword : s.wordAtPc = encode (.jp (s.pc.setWidth 12)) := by
    apply BitVec.eq_of_toNat_eq
    rw [hw, encode, toNat_formatNNN 0x1 (by decide), BitVec.toNat_setWidth]
    omega
  rw [hword]
  exact Laws.RoundTrip.jp _ rfl

/-- PC returns to where the step fetched, so only the result is written. -/
theorem State.ReadyToFetch.step_selfJump : step s = .next (s.setResult .ok) := by
  have hpc := hs.pc_le
  have htarget : immAddr (s.pc.setWidth 12) = s.pc := by
    apply BitVec.eq_of_toNat_eq
    rw [toNat_immAddr, BitVec.toNat_setWidth]
    omega
  calc step s
    _ = stepCycle false s := step_of_nil hs.no_schedule
    _ = exec (.jp (s.pc.setWidth 12)) s.advancePc :=
        stepCycle_of_decoded false hs.not_halted hpc (hs.decodeWord_selfJump hw)
    _ = finish (s.advancePc.setPc (immAddr (s.pc.setWidth 12))) := rfl
    _ = .next (s.setResult .ok) := by rw [htarget]; rfl

end

/-- The result is no part of what makes a core ready to fetch. -/
theorem State.ReadyToFetch.setResult {s : State} (hs : s.ReadyToFetch) (r : Result) : (s.setResult r).ReadyToFetch :=
  ⟨hs.no_schedule, hs.not_halted, hs.pc_le⟩

/-- Settles O51, by induction on the number of steps: each returns Ok and leaves a core that is ready to fetch the same
word. -/
theorem selfJumpRunsForEver : Obligations.SelfJumpRunsForEver := by
  intro s n hs hw
  induction n generalizing s with
  | zero => trivial
  | succ n ih => exact ⟨s.setResult .ok, hs.step_selfJump hw, rfl, ih _ (hs.setResult .ok) hw⟩

end Sys2Proof.Machine
end

section
/-! Control transfer (41_control_flow.md): what the operations behind the jumps, the subroutines and the skips answer,
and the statements about those instructions. -/

namespace Sys2Proof.Machine

section
variable {W : Component → Prop} (s : State)

theorem changesOnly_setSp (h : W .sp) (n : Fin 17) : ChangesOnly W s { s with sp := n } := by
  refine ⟨fun c hc => ?_, rfl, rfl⟩
  cases c with
  | sp => exact absurd h hc
  | _ => rfl

theorem changesOnly_setSlot (j : Fin 16) (h : W (.slot j)) (w : Word) :
    ChangesOnly W s { s with stack := s.stack.set j w } := by
  refine ⟨fun c hc => ?_, rfl, rfl⟩
  cases c with
  | slot k =>
    have hk : j.val ≠ k.val := fun e => hc (Fin.ext e ▸ h)
    simp [Vector.getElem_set_ne, hk]
  | _ => rfl

end

section
variable {W : Component → Prop} {s t : State} (h : ChangesOnly W s t)
include h

theorem ChangesOnly.reg_eq {r : Reg} (hr : ¬ W (.reg r)) : t.reg r = s.reg r :=
  BitVec.eq_of_toNat_eq (h.view_eq (.reg r) hr)

theorem ChangesOnly.slot_eq {j : Fin 16} (hj : ¬ W (.slot j)) : t.stack[j] = s.stack[j] :=
  BitVec.eq_of_toNat_eq (h.view_eq (.slot j) hj)

end

/-- An error that is not of the abort class is the result and changes nothing else (R195). -/
theorem raise_of_not_aborts (s : State) {e : Result} (he : e.aborts = false) :
    ∃ t, raise e s = .next t ∧ t.result = e ∧ ChangesOnlyList [] s t :=
  ⟨_, raise_eq e s, rfl, changesOnly_raise s e (fun h => by simp [he] at h)⟩

/-- A jump, to whatever target, writes PC alone and succeeds (R102, R108). -/
theorem finish_setPc (s : State) (w : Word) :
    ∃ t, finish (s.setPc w) = .next t ∧ t.result = .ok ∧ t.pc = w ∧ ChangesOnlyList [.pc] s t :=
  ⟨_, finish_eq _, rfl, rfl, (changesOnly_setPc s (List.mem_singleton_self _) w).setResult .ok⟩

/-- A fetch at 0xFFF or above with nothing scheduled (R58, R194). -/
theorem step_of_unfetchable {s : State} (hsched : s.schedule = []) (hhalted : s.halted = false)
    (hpc : 0xFFF ≤ s.pc.toNat) : step s = raise (.pcOutOfBounds s.pc) s :=
  (step_of_nil hsched).trans (stepCycle_of_unfetchable false hhalted hpc)

/-- Settles O18: a jump is a write of PC, with which a self-jump undoes the advance of PC, and no target is checked
before the next fetch. -/
theorem jumpWritesPc : Obligations.JumpWritesPc := by
  refine ⟨fun _ => rfl, fun s nnn => ?target, fun s hs hw => ?selfJump, fun s t hsched hhalted h => ?beyond⟩
  case target =>
    obtain ⟨t, hexec, hok, hpc, hframe⟩ := finish_setPc s (immAddr nnn)
    exact ⟨t, hexec, hok, by rw [hpc, toNat_immAddr], hframe⟩
  case selfJump => exact ⟨_, hs.step_selfJump hw, rfl, changesOnly_setResult s _ .ok⟩
  case beyond =>
    obtain rfl := (finish_next_iff (s.setPc (immAddr 0xFFF)) t).mp h
    have hstep := step_of_unfetchable (s := (s.setPc (immAddr 0xFFF)).setResult .ok) hsched hhalted (Nat.le_refl 0xFFF)
    rw [hstep]
    exact raise_of_not_aborts _ rfl

/-- Settles O19: the sum of a byte and a 12-bit address does not wrap in 16 bits. -/
theorem offsetJumpAddsV0 : Obligations.OffsetJumpAddsV0 := by
  intro s nnn
  obtain ⟨t, hexec, hok, hpc, hframe⟩ := finish_setPc s (immByte (s.reg 0) + immAddr nnn)
  refine ⟨t, hexec, hok, ?_, hframe⟩
  rw [hpc, BitVec.toNat_add, toNat_immByte, toNat_immAddr]
  omega

/-! Subroutines (R101, R103). -/

/-- With a slot `j` free at SP, CALL writes that slot, SP and PC. -/
theorem execCall_of_free (s : State) (nnn : Addr) {j : Fin 16} (hj : j.val = s.sp.val) :
    ∃ t, execCall nnn s = .next t ∧ t.result = .ok ∧ t.pc = immAddr nnn ∧ t.sp.val = s.sp.val + 1 ∧
      t.stack[j] = s.pc ∧ ChangesOnlyList [.pc, .sp, .slot j] s t := by
  have hlt : s.sp.val < 16 := hj ▸ j.isLt
  obtain rfl : j = ⟨s.sp.val, hlt⟩ := Fin.ext hj
  refine ⟨_, execCall_of_lt s nnn hlt, rfl, rfl, rfl, Vector.getElem_set_self _, ?_⟩
  have hpush : ChangesOnlyList [.pc, .sp, .slot ⟨s.sp.val, hlt⟩] s _ :=
    (changesOnly_setSlot s ⟨s.sp.val, hlt⟩ (by simp) s.pc).trans
      (changesOnly_setSp _ (by simp) ⟨s.sp.val + 1, by omega⟩)
  exact (hpush.trans (changesOnly_setPc _ (by simp) (immAddr nnn))).setResult .ok

/-- With a slot `j` in use below SP, RET reads it into PC and makes it the next free one. -/
theorem execRet_of_used (s : State) {j : Fin 16} (hj : j.val + 1 = s.sp.val) :
    ∃ t, execRet s = .next t ∧ t.result = .ok ∧ t.pc = s.stack[j] ∧ t.sp.val = j.val ∧
      ChangesOnlyList [.pc, .sp] s t := by
  have htop : s.sp.val - 1 = j.val := by omega
  refine ⟨_, execRet_of_pos s (by omega), rfl, ?_, htop, ?_⟩
  · simp [htop]
  · have hpop : ChangesOnlyList [.pc, .sp] s _ := changesOnly_setSp s (by simp) ⟨s.sp.val - 1, by omega⟩
    exact (hpop.trans (changesOnly_setPc _ (by simp) _)).setResult .ok

/-- Settles O20: the push has a free slot below SP = 16, and the error of a full stack is not of the abort class. -/
theorem callPushesTheReturnAddress : Obligations.CallPushesTheReturnAddress := by
  intro s nnn
  refine ⟨fun j hj => ?free, fun hfull => ?full⟩
  case free =>
    obtain ⟨t, hexec, hok, hpc, hsp, hslot, hframe⟩ := execCall_of_free s nnn hj
    exact ⟨t, hexec, hok, by rw [hpc, toNat_immAddr], hsp, hslot, hframe⟩
  case full =>
    rw [exec, execCall_of_full s nnn hfull]
    exact raise_of_not_aborts s rfl

/-- Settles O21: the pop has a slot in use above SP = 0, and the error of an empty stack is not of the abort class. -/
theorem returnPopsTheTopSlot : Obligations.ReturnPopsTheTopSlot := by
  intro s
  refine ⟨fun j hj => execRet_of_used s hj, fun hempty => ?_⟩
  rw [exec, execRet_of_zero s hempty]
  exact raise_of_not_aborts s rfl

/-- Settles O22: the slot the RET reads is the one the CALL wrote, and neither writes a slot below it. -/
theorem returnUndoesCall : Obligations.ReturnUndoesCall := by
  intro s nnn hlt
  obtain ⟨t, hcall, -, -, hspt, hslot, hframet⟩ := execCall_of_free s nnn (j := ⟨s.sp.val, hlt⟩) rfl
  obtain ⟨u, hret, hok, hpc, hspu, hframeu⟩ := execRet_of_used t (j := ⟨s.sp.val, hlt⟩) hspt.symm
  refine ⟨t, u, hcall, hret, hok, hpc.trans hslot, Fin.ext hspu, fun k hk => ?_⟩
  have hne : k ≠ ⟨s.sp.val, hlt⟩ := fun e => (congrArg Fin.val e).not_lt hk
  exact (hframeu.slot_eq (by simp)).trans (hframet.slot_eq (by simp [hne]))

/-! Skips (R104 to R107). -/

/-- A skip on the condition `P` moves PC on by 2 if it holds, and changes nothing else (R100). -/
theorem skipIf_of_iff (s : State) {c : Bool} {P : Prop} (hc : c = true ↔ P) :
    ∃ t, skipIf c s = .next t ∧ t.result = .ok ∧ ChangesOnlyList [.pc] s t ∧
      (P → t.pc = s.pc + 2) ∧ (¬ P → t.pc = s.pc) := by
  refine ⟨_, skipIf_eq c s, rfl, (changesOnly_skipIf s (List.mem_singleton_self _) c).setResult .ok,
    fun hP => ?taken, fun hP => ?passed⟩
  case taken => rw [if_pos (hc.mpr hP)]; rfl
  case passed => rw [if_neg (mt hc.mp hP)]; rfl

/-- 3xnn and 5xy0: the skip when two bytes are equal as numbers. -/
theorem skipIf_beq (s : State) (a b : Byte) :
    ∃ t, skipIf (a == b) s = .next t ∧ t.result = .ok ∧ ChangesOnlyList [.pc] s t ∧
      (a.toNat = b.toNat → t.pc = s.pc + 2) ∧ (a.toNat ≠ b.toNat → t.pc = s.pc) :=
  skipIf_of_iff s (by rw [beq_iff_eq, BitVec.toNat_inj])

/-- 4xnn and 9xy0: the skip when two bytes differ as numbers. -/
theorem skipIf_bne (s : State) (a b : Byte) :
    ∃ t, skipIf (a != b) s = .next t ∧ t.result = .ok ∧ ChangesOnlyList [.pc] s t ∧
      (a.toNat ≠ b.toNat → t.pc = s.pc + 2) ∧ (a.toNat = b.toNat → t.pc = s.pc) := by
  obtain ⟨t, hskip, hok, hframe, htaken, hpassed⟩ :=
    skipIf_of_iff s (c := a != b) (P := a.toNat ≠ b.toNat) (by rw [bne_iff_ne, ne_eq, ne_eq, BitVec.toNat_inj])
  exact ⟨t, hskip, hok, hframe, htaken, fun h => hpassed (not_not_intro h)⟩

/-- Settles O23: the condition compares Vx with the immediate, and VF is outside the frame of a skip. -/
theorem immediateSkips : Obligations.ImmediateSkips := by
  intro s x nn
  refine ⟨⟨rfl, ?equal⟩, ⟨rfl, ?notEqual⟩⟩
  case equal =>
    obtain ⟨t, hskip, hok, hframe, hpc⟩ := skipIf_beq s (s.reg x) nn
    exact ⟨t, hskip, hok, hframe.reg_eq (by simp), hpc⟩
  case notEqual =>
    obtain ⟨t, hskip, hok, hframe, hpc⟩ := skipIf_bne s (s.reg x) nn
    exact ⟨t, hskip, hok, hframe.reg_eq (by simp), hpc⟩

/-- Settles O24: the condition compares Vx with Vy, and the other low nibbles of both groups are in the table of invalid
words. -/
theorem registerSkips : Obligations.RegisterSkips := by
  refine ⟨fun s x y => ⟨⟨rfl, skipIf_beq s (s.reg x) (s.reg y)⟩, ⟨rfl, skipIf_bne s (s.reg x) (s.reg y)⟩⟩,
    fun w hgroup hlow => ?_⟩
  refine (invalidWordsAreExactlyThoseListed w).1 ?_
  rcases hgroup with h5 | h9
  · exact .inr (.inl ⟨h5, hlow⟩)
  · exact .inr (.inr (.inr (.inl ⟨h9, hlow⟩)))

end Sys2Proof.Machine
end

section
/-! Loads, arithmetic, logic, shifts and the random byte (42_alu.md): what the two shapes of a result answer, a register
alone and a register with its flag, and the statements about those instructions. -/

namespace Sys2Proof.Machine

/-- A piece of state written with the value it held is not changed. -/
theorem ChangesOnly.of_view_eq {c : Component} {W : List Component} {s t : State}
    (h : ChangesOnlyList (c :: W) s t) (hc : t.view c = s.view c) : ChangesOnlyList W s t := by
  refine ⟨fun c' hc' => ?_, h.draws_eq, h.schedule_eq⟩
  by_cases heq : c' = c
  · rw [heq, hc]
  · exact h.view_eq c' (List.not_mem_cons_of_ne_of_not_mem heq hc')

/-- A result without a flag is written to Vx alone (R121 to R126). -/
theorem finish_setReg (s : State) (x : Reg) (b : Byte) :
    ∃ t, finish (s.setReg x b) = .next t ∧ t.result = .ok ∧ t.reg x = b ∧ ChangesOnlyList [.reg x] s t :=
  ⟨_, finish_eq _, rfl, State.reg_setReg_same s x b,
    (changesOnly_setReg s (List.mem_singleton_self _) b).setResult .ok⟩

/-- A result with a flag is the later of two writes: it stays in Vx whatever x is, and the flag stays in VF unless x is F
(R11, R135). -/
theorem finish_setFlagThenReg (s : State) (flag : Byte) (x : Reg) (b : Byte) :
    ∃ t, finish (s.setFlagThenReg flag x b) = .next t ∧ t.result = .ok ∧ t.reg x = b ∧
      (x ≠ Reg.vf → t.reg Reg.vf = flag) ∧ ChangesOnlyList [.reg x, .reg Reg.vf] s t := by
  refine ⟨_, finish_eq _, rfl, ?result, fun hx => ?flag,
    (changesOnly_setFlagThenReg s (by simp) (by simp) flag b).setResult .ok⟩
  case result => rw [State.reg_setResult, State.reg_setFlagThenReg, if_pos rfl]
  case flag => rw [State.reg_setResult, State.reg_setFlagThenReg, if_neg hx.symm, if_pos rfl]

/-- Settles O25: each is one register write, and VF is outside its frame unless x is F. -/
theorem loadsAndImmediateAdd : Obligations.LoadsAndImmediateAdd := by
  intro s x y nn
  refine ⟨⟨rfl, ?immediate⟩, ⟨rfl, ?sum⟩, ⟨rfl, ?copy⟩⟩
  case immediate =>
    obtain ⟨t, hexec, hok, hreg, hframe⟩ := finish_setReg s x nn
    exact ⟨t, hexec, hok, congrArg BitVec.toNat hreg, fun hx => hframe.reg_eq (by simp [hx.symm])⟩
  case sum =>
    obtain ⟨t, hexec, hok, hreg, hframe⟩ := finish_setReg s x (s.reg x + nn)
    exact ⟨t, hexec, hok, by rw [hreg, BitVec.toNat_add], fun hx => hframe.reg_eq (by simp [hx.symm])⟩
  case copy =>
    obtain ⟨t, hexec, hok, hreg, hframe⟩ := finish_setReg s x (s.reg y)
    refine ⟨t, hexec, hok, congrArg BitVec.toNat hreg, fun hx => hframe.reg_eq (by simp [hx.symm]), ?_⟩
    rintro rfl
    exact hframe.of_view_eq (congrArg BitVec.toNat hreg)

/-- Settles O26: each is one register write, of a bitwise operation on the operands. -/
theorem logicActsBitByBit : Obligations.LogicActsBitByBit := by
  intro s x y
  refine ⟨?or, ?and, ?xor⟩
  case or =>
    obtain ⟨t, hexec, hok, hreg, hframe⟩ := finish_setReg s x (s.reg x ||| s.reg y)
    exact ⟨t, hexec, hok, hframe, fun k => by rw [hreg, BitVec.getLsbD_or]⟩
  case and =>
    obtain ⟨t, hexec, hok, hreg, hframe⟩ := finish_setReg s x (s.reg x &&& s.reg y)
    exact ⟨t, hexec, hok, hframe, fun k => by rw [hreg, BitVec.getLsbD_and]⟩
  case xor =>
    obtain ⟨t, hexec, hok, hreg, hframe⟩ := finish_setReg s x (s.reg x ^^^ s.reg y)
    exact ⟨t, hexec, hok, hframe, fun k => by rw [hreg, BitVec.getLsbD_xor]⟩

/-- Settles O27: the carry of the true sum, then the sum. -/
theorem additionCarriesIntoVF : Obligations.AdditionCarriesIntoVF := by
  intro s x y
  obtain ⟨t, hexec, hok, hreg, hflag, hframe⟩ :=
    finish_setFlagThenReg s (carryFlag (s.reg x) (s.reg y)) x (s.reg x + s.reg y)
  exact ⟨t, hexec, hok, by rw [hreg, BitVec.toNat_add], fun hx => by rw [hflag hx, toNat_carryFlag], hframe⟩

/-- The difference of two bytes mod 256. -/
theorem toNat_byteSub (a b : Byte) : (a - b).toNat = (a.toNat + 256 - b.toNat) % 256 := by
  rw [BitVec.toNat_sub]
  omega

/-- 8xy5 and 8xy7: the strict comparison of `a` with `b`, then `a - b` (R128, R130). -/
theorem finish_difference (s : State) (x : Reg) (a b : Byte) :
    ∃ t, finish (s.setFlagThenReg (greaterFlag a b) x (a - b)) = .next t ∧ t.result = .ok ∧
      (t.reg x).toNat = (a.toNat + 256 - b.toNat) % 256 ∧
      (x ≠ Reg.vf → b.toNat < a.toNat → (t.reg Reg.vf).toNat = 1) ∧
      (x ≠ Reg.vf → a.toNat ≤ b.toNat → (t.reg Reg.vf).toNat = 0) ∧
      ChangesOnlyList [.reg x, .reg Reg.vf] s t := by
  obtain ⟨t, hexec, hok, hreg, hflag, hframe⟩ := finish_setFlagThenReg s (greaterFlag a b) x (a - b)
  refine ⟨t, hexec, hok, by rw [hreg, toNat_byteSub], fun hx hlt => ?greater, fun hx hle => ?notGreater, hframe⟩
  case greater => rw [hflag hx, toNat_greaterFlag, if_pos hlt]
  case notGreater => rw [hflag hx, toNat_greaterFlag, if_neg (Nat.not_lt.mpr hle)]

/-- Settles O28: the two subtractions are one difference with the operands exchanged. -/
theorem subtractionsCompareStrictly : Obligations.SubtractionsCompareStrictly := fun s x y =>
  ⟨finish_difference s x (s.reg x) (s.reg y), finish_difference s x (s.reg y) (s.reg x)⟩

/-- Settles O29: the bit shifted out is read from Vx as it was, and no value comes from Vy. -/
theorem shiftsMoveOneBit : Obligations.ShiftsMoveOneBit := by
  intro s x y
  refine ⟨?right, ?left⟩
  case right =>
    obtain ⟨t, hexec, hok, hreg, hflag, hframe⟩ :=
      finish_setFlagThenReg s (lowBitFlag (s.reg x)) x (s.reg x >>> 1)
    refine ⟨t, hexec, hok, ?_, fun hx => by rw [hflag hx, toNat_lowBitFlag], hframe⟩
    rw [hreg, BitVec.toNat_ushiftRight, Nat.shiftRight_one]
  case left =>
    obtain ⟨t, hexec, hok, hreg, hflag, hframe⟩ :=
      finish_setFlagThenReg s (highBitFlag (s.reg x)) x (s.reg x <<< 1)
    refine ⟨t, hexec, hok, ?_, fun hx => by rw [hflag hx, toNat_highBitFlag], hframe⟩
    rw [hreg, BitVec.toNat_shiftLeft, Nat.shiftLeft_eq, pow_one]

/-- Settles O30: but for the count of draws, Cxnn is one register write, of the draw under the mask. -/
theorem randomByteIsMasked : Obligations.RandomByteIsMasked := by
  intro s x nn
  have hreg : (s.setReg x (Config.rand8 s.draws &&& nn)).reg x = Config.rand8 s.draws &&& nn :=
    State.reg_setReg_same s x _
  refine ⟨{ s.setReg x (Config.rand8 s.draws &&& nn) with result := .ok, draws := s.draws + 1 }, rfl, rfl,
    fun k => ?bits, ?bound, rfl, ?frame⟩
  case bits => exact (congrArg (BitVec.getLsbD · k) hreg).trans BitVec.getLsbD_and
  case bound =>
    calc _ = (Config.rand8 s.draws).toNat &&& nn.toNat := (congrArg BitVec.toNat hreg).trans (BitVec.toNat_and _ _)
      _ ≤ nn.toNat := Nat.and_le_right
  case frame => exact (changesOnly_setReg s (List.mem_singleton_self _) _).setResult .ok

end Sys2Proof.Machine
end

section
/-! The count of draws is read by Cxnn alone: `exec` of every other instruction commutes with another value in it
(R134; log 3). -/

namespace Sys2Proof.Machine

/-- The state with another count of draws. -/
def State.setDraws (s : State) (d : Nat) : State := { s with draws := d }

/-- The answer with another count of draws. -/
def withDraws (d : Nat) : Answer → Answer
  | .next t => .next (t.setDraws d)
  | .fault r => .fault r
  | .refused r => .refused r

section
variable (s : State) (d : Nat)

/-! The shared operations that an instruction's meaning branches on. -/

theorem State.pc_setDraws : (s.setDraws d).pc = s.pc := rfl

theorem State.reg_setDraws (x : Reg) : (s.setDraws d).reg x = s.reg x := rfl

theorem State.accessFault_setDraws (len : Nat) : (s.setDraws d).accessFault len = s.accessFault len := rfl

theorem State.highestKey_setDraws : (s.setDraws d).highestKey = s.highestKey := rfl

theorem State.pop_setDraws : (s.setDraws d).pop = s.pop.map (fun p => (p.1, p.2.setDraws d)) := by
  rcases Nat.eq_zero_or_pos s.sp.val with h | h
  · rw [(State.pop_eq_none_iff s).mpr h]
    exact (State.pop_eq_none_iff (s.setDraws d)).mpr h
  · rw [State.pop_eq_some s h]
    exact State.pop_eq_some (s.setDraws d) h

theorem State.push_setDraws (w : Word) : (s.setDraws d).push w = (s.push w).map (·.setDraws d) := by
  rcases Nat.lt_or_ge s.sp.val 16 with h | h
  · rw [State.push_eq_some s w h]
    exact State.push_eq_some (s.setDraws d) w h
  · have hfull : s.sp.val = 16 := by omega
    rw [(State.push_eq_none_iff s w).mpr hfull]
    exact (State.push_eq_none_iff (s.setDraws d) w).mpr hfull

theorem skipIf_setDraws (c : Bool) : skipIf c (s.setDraws d) = withDraws d (skipIf c s) := by
  cases c
  · rfl
  · rfl

/-- Every instruction but Cxnn does the same with another count of draws, and leaves that count. -/
theorem exec_setDraws (i : Instr) (hi : ∀ x nn, i ≠ .rnd x nn) : exec i (s.setDraws d) = withDraws d (exec i s) := by
  cases i with
  | rnd x nn => exact absurd rfl (hi x nn)
  | ret =>
    rw [exec, exec, execRet, execRet, State.pop_setDraws]
    cases s.pop <;> rfl
  | call nnn =>
    rw [exec, exec, execCall, execCall, State.pc_setDraws, State.push_setDraws]
    cases s.push s.pc <;> rfl
  | seByte x nn => exact skipIf_setDraws s d _
  | sneByte x nn => exact skipIf_setDraws s d _
  | seReg x y => exact skipIf_setDraws s d _
  | sneReg x y => exact skipIf_setDraws s d _
  | drw x y n =>
    rw [exec, exec, execDrw, execDrw, State.accessFault_setDraws]
    cases s.accessFault n <;> rfl
  | skp x =>
    rw [exec, exec, execSkp, execSkp, State.reg_setDraws]
    cases keyIndex (s.reg x) with
    | none => rfl
    | some k => exact skipIf_setDraws s d _
  | sknp x =>
    rw [exec, exec, execSknp, execSknp, State.reg_setDraws]
    cases keyIndex (s.reg x) with
    | none => rfl
    | some k => exact skipIf_setDraws s d _
  | ldVxKey x =>
    rw [exec, exec, execLdVxKey, execLdVxKey, State.highestKey_setDraws]
    cases s.highestKey <;> rfl
  | ldBcd x =>
    rw [exec, exec, execLdBcd, execLdBcd, State.accessFault_setDraws]
    cases s.accessFault 3 <;> rfl
  | storeRegs x =>
    rw [exec, exec, execStoreRegs, execStoreRegs, State.accessFault_setDraws]
    cases s.accessFault (x.val + 1) <;> rfl
  | loadRegs x =>
    rw [exec, exec, execLoadRegs, execLoadRegs, State.accessFault_setDraws]
    cases s.accessFault (x.val + 1) <;> rfl
  | _ => rfl

end

/-- Settles O31: the answer carries whatever count it is given along, so it carries the state's own. -/
theorem otherInstructionsIgnoreTheDraws : Obligations.OtherInstructionsIgnoreTheDraws := by
  intro i s t d hi h
  have hother : ∀ d', exec i (s.setDraws d') = .next (t.setDraws d') := fun d' =>
    (exec_setDraws s d' i hi).trans (congrArg (withDraws d') h)
  have hown : t = t.setDraws s.draws := Host.Outcome.next.inj (h.symm.trans (hother s.draws))
  exact ⟨(congrArg State.draws hown).trans rfl, hother d⟩

end Sys2Proof.Machine
end

section
/-! The index register and the memory instructions (43_index_memory.md): what a write of I, a store at I and a block
load answer, and the statements about those instructions. -/

namespace Sys2Proof.Machine

/-! The index register (R140 to R142). -/

/-- A write of I succeeds and changes nothing else. -/
theorem finish_setIndex (s : State) (w : Word) :
    ∃ t, finish (s.setIndex w) = .next t ∧ t.result = .ok ∧ t.i = w ∧ ChangesOnlyList [.index] s t :=
  ⟨_, finish_eq _, rfl, rfl, (changesOnly_setIndex s (List.mem_singleton_self _) w).setResult .ok⟩

/-- Settles O32: each is one write of I, and VF is outside its frame. -/
theorem indexLoadAndAdd : Obligations.IndexLoadAndAdd := by
  intro s x nnn
  refine ⟨⟨rfl, ?load⟩, ⟨formatXKK_eq_ofNat 0xF x 0x1E, ?add⟩⟩
  case load =>
    obtain ⟨t, hexec, hok, hi, hframe⟩ := finish_setIndex s (immAddr nnn)
    exact ⟨t, hexec, hok, by rw [hi, toNat_immAddr], hframe.reg_eq (by simp)⟩
  case add =>
    obtain ⟨t, hexec, hok, hi, hframe⟩ := finish_setIndex s (s.i + immByte (s.reg x))
    exact ⟨t, hexec, hok, by rw [hi, BitVec.toNat_add, toNat_immByte], hframe.reg_eq (by simp)⟩

/-- Settles O33: five times a byte does not wrap in 16 bits. -/
theorem fontAddressIsFiveTimesVx : Obligations.FontAddressIsFiveTimesVx := by
  intro s x
  obtain ⟨t, hexec, hok, hi, hframe⟩ := finish_setIndex s (immByte (s.reg x) * 5)
  refine ⟨t, hexec, hok, ?_, hframe⟩
  rw [hi, BitVec.toNat_mul, toNat_immByte]
  exact Nat.mod_eq_of_lt (show (s.reg x).toNat * 5 < 65536 by omega)

/-! Stores at I (R143, R144). -/

/-- Bytes stored from I on, in bounds, read back in order, and no other byte changes (R61). -/
theorem finish_setMem_writeBytes {s : State} {bs : List Byte} (hm : s.mem.wf = true)
    (hle : s.i.toNat + bs.length ≤ 0x1000) :
    ∃ t, finish (s.setMem (s.mem.writeBytes s.i.toNat bs)) = .next t ∧ t.result = .ok ∧
      (∀ k (hk : k < bs.length), t.mem.read (s.i.toNat + k) = bs[k]) ∧
      ChangesOnly (fun c => ∃ k < bs.length, c = .byte (s.i.toNat + k)) s t := by
  refine ⟨_, finish_eq _, rfl, fun k hk => ?stored,
    ChangesOnly.setResult (changesOnly_setMem s _ fun a ha => ?kept) .ok⟩
  case stored =>
    rw [State.setResult_mem, State.setMem_mem, Memory.read_writeBytes hm hle, dif_pos (by omega)]
    simp only [Nat.add_sub_cancel_left]
  case kept =>
    rw [Memory.read_writeBytes hm hle, dif_neg]
    rintro ⟨hlo, hhi⟩
    exact ha ⟨a - s.i.toNat, by omega, by rw [Nat.add_sub_cancel' hlo]⟩

/-- The three digits of a byte are decimal digits, and their decimal value is the byte (R143). -/
theorem bcdDigits_eq (b : Byte) :
    ∃ hundreds tens ones : Byte, bcdDigits b = [hundreds, tens, ones] ∧ hundreds.toNat < 10 ∧ tens.toNat < 10 ∧
      ones.toNat < 10 ∧ hundreds.toNat * 100 + tens.toNat * 10 + ones.toNat = b.toNat := by
  have hb := b.isLt
  refine ⟨_, _, _, rfl, ?_⟩
  simp only [BitVec.toNat_ofNat]
  omega

/-- Settles O34: the list stored at I is the three digits. -/
theorem bcdStoresThreeDigits : Obligations.BcdStoresThreeDigits := by
  intro s x hm hle
  have hblock : s.i.toNat + 3 ≤ 0x1000 := Nat.succ_le_succ hle
  obtain ⟨hundreds, tens, ones, hdigits, hlt2, hlt1, hlt0, hsum⟩ := bcdDigits_eq (s.reg x)
  obtain ⟨t, hexec, hok, hread, hframe⟩ := finish_setMem_writeBytes (bs := [hundreds, tens, ones]) hm hblock
  have hread2 : t.mem.read s.i.toNat = hundreds := hread 0 (by simp)
  have hread1 : t.mem.read (s.i.toNat + 1) = tens := hread 1 (by simp)
  have hread0 : t.mem.read (s.i.toNat + 2) = ones := hread 2 (by simp)
  rw [exec, execLdBcd_of_le s x hblock, hdigits]
  refine ⟨t, hexec, hok, ?_⟩
  rw [hread2, hread1, hread0]
  refine ⟨hlt2, hlt1, hlt0, hsum, hframe.mono ?_⟩
  rintro c ⟨k, hk, rfl⟩
  match k, hk with
  | 0, _ => simp
  | 1, _ => simp
  | 2, _ => simp

/-- Settles O35: the list stored at I is the block V0 to Vx. -/
theorem registersAreStoredInOrder : Obligations.RegistersAreStoredInOrder := by
  intro s x hm hle
  have hlen : (s.regBlock (x.val + 1)).length = x.val + 1 := s.length_regBlock _ x.isLt
  obtain ⟨t, hexec, hok, hread, hframe⟩ :=
    finish_setMem_writeBytes (bs := s.regBlock (x.val + 1)) hm (by omega)
  refine ⟨t, (execStoreRegs_of_le s x (by omega)).trans hexec, hok, fun r hr => ?stored, hframe.mono ?frame⟩
  case stored =>
    have hk : r.val < (s.regBlock (x.val + 1)).length := hlen.symm ▸ Nat.lt_succ_of_le hr
    exact (hread r.val hk).trans (s.getElem_regBlock _ _ hk r.isLt)
  case frame =>
    rintro c ⟨k, hk, rfl⟩
    exact ⟨⟨k, by omega⟩, Fin.mk_le_of_le_val (by omega), rfl⟩

/-! The block load (R145). -/

/-- The registers V0 to Vx written from memory, and nothing else. -/
theorem changesOnly_loadBlock {W : Component → Prop} (s : State) (base len : Nat)
    (hW : ∀ r : Reg, r.val < len → W (.reg r)) : ChangesOnly W s { s with v := loadBlock s.mem base len s.v } := by
  refine ⟨fun c hc => ?_, rfl, rfl⟩
  cases c with
  | reg r =>
    have hr : ¬ r.val < len := fun h => hc (hW r h)
    exact congrArg BitVec.toNat ((getElem_loadBlock s.mem base len s.v r.val r.isLt).trans (if_neg hr))
  | _ => rfl

/-- Settles O36: a register up to Vx is in the block loaded, and one above it is not. -/
theorem registersAreLoadedInOrder : Obligations.RegistersAreLoadedInOrder := by
  intro s x hle
  refine ⟨_, execLoadRegs_of_le s x (by omega), rfl, fun r hr => ?loaded, ChangesOnly.setResult ?frame .ok⟩
  case loaded =>
    exact (getElem_loadBlock s.mem s.i.toNat (x.val + 1) s.v r.val r.isLt).trans (if_pos (Nat.lt_succ_of_le hr))
  case frame =>
    exact changesOnly_loadBlock s s.i.toNat (x.val + 1) fun r hr => ⟨r, Nat.le_of_lt_succ hr, rfl⟩

end Sys2Proof.Machine
end

section
/-! Clearing and drawing (44_display.md): the cells and the collision flag of one draw, the cells a second draw hits,
and the statements about both instructions. -/

namespace Sys2Proof.Machine

/-- Settles O38: every cell of a clear framebuffer is 0, and only the framebuffer is replaced. -/
theorem clearZeroesEveryCell : Obligations.ClearZeroesEveryCell := by
  refine ⟨rfl, fun s => ⟨_, finish_eq _, rfl, Framebuffer.cell_clear, ChangesOnly.setResult ?frame .ok⟩⟩
  case frame => exact changesOnly_setFb s _ fun px py hpx => absurd ⟨px, py, rfl⟩ hpx

/-! One draw (R161 to R163). -/

section
variable (s : State) (x y : Reg) {n : Nat} (hn : n < 16)
include hn

/-- A sprite of fewer than 16 rows hits no cell twice, so a cell it covers is inverted once (R165). -/
theorem State.cell_drawn_of_covers (hit : Bool) {px : Col} {py : Row} (h : s.SpriteCovers x y n px py) :
    (s.fb.xorPixels (s.spriteCells (s.reg x) (s.reg y) n) hit).1.cell px py = ! s.fb.cell px py := by
  have hmem := (s.mem_spriteCells x y n px py).mpr h
  rw [Framebuffer.cell_xorPixels _ (s.nodup_spriteCells _ _ n (by omega)), decide_eq_true hmem, Bool.xor_true]

theorem State.cell_drawn_of_not_covers (hit : Bool) {px : Col} {py : Row} (h : ¬ s.SpriteCovers x y n px py) :
    (s.fb.xorPixels (s.spriteCells (s.reg x) (s.reg y) n) hit).1.cell px py = s.fb.cell px py := by
  have hmem := mt (s.mem_spriteCells x y n px py).mp h
  rw [Framebuffer.cell_xorPixels _ (s.nodup_spriteCells _ _ n (by omega)), decide_eq_false hmem, Bool.xor_false]

/-- The collision flag of a draw: the sprite covers a cell that was 1 (R163). -/
theorem State.collision_iff :
    (s.fb.xorPixels (s.spriteCells (s.reg x) (s.reg y) n) false).2 = true ↔
      ∃ px py, s.SpriteCovers x y n px py ∧ s.fb.cell px py = true := by
  rw [Framebuffer.hit_xorPixels _ (s.nodup_spriteCells _ _ n (by omega))]
  simp [State.mem_spriteCells]

end

/-- Settles O39: the cells of the draw's list are those the sprite covers, and the flag is written last. -/
theorem drawXorsExactlyTheSprite : Obligations.DrawXorsExactlyTheSprite := by
  intro s x y n hn hbounds
  refine ⟨_, execDrw_of_le s x y n (by omega), rfl,
    fun px py => ⟨s.cell_drawn_of_covers x y hn false, s.cell_drawn_of_not_covers x y hn false⟩,
    fun hset => ?collides, fun hclear => ?passes, ChangesOnly.setResult ?frame .ok⟩
  case collides =>
    rw [State.reg_setResult, State.reg_setReg_same, toNat_flagByte, (s.collision_iff x y hn).mpr hset, Bool.toNat_true]
  case passes =>
    have hno : ¬ ∃ px py, s.SpriteCovers x y n px py ∧ s.fb.cell px py = true :=
      fun ⟨px, py, hcov, hcell⟩ => Bool.false_ne_true ((hclear px py hcov).symm.trans hcell)
    have hflag := Bool.eq_false_of_not_eq_true (mt (s.collision_iff x y hn).mp hno)
    rw [State.reg_setResult, State.reg_setReg_same, toNat_flagByte, hflag, Bool.toNat_false]
  case frame =>
    exact (changesOnly_setFb s _ fun px py hpx => absurd (.inr ⟨px, py, rfl⟩) hpx).trans
      (changesOnly_setReg _ (.inl rfl) _)

/-! The second draw (R165, W8). -/

/-- A sprite covers the same cells as long as its coordinates, I and memory are unchanged. -/
theorem ChangesOnly.spriteCovers_iff {W : Component → Prop} {s t : State} (h : ChangesOnly W s t) {x y : Reg}
    (hx : ¬ W (.reg x)) (hy : ¬ W (.reg y)) (hi : ¬ W .index) (hmem : ∀ a, ¬ W (.byte a)) (n : Nat) (px : Col)
    (py : Row) : t.SpriteCovers x y n px py ↔ s.SpriteCovers x y n px py := by
  have hindex : t.i.toNat = s.i.toNat := h.view_eq .index hi
  have hread (a : Nat) : t.mem.read a = s.mem.read a := BitVec.eq_of_toNat_eq (h.view_eq (.byte a) (hmem a))
  simp only [State.SpriteCovers, hindex, hread, h.reg_eq hx, h.reg_eq hy]

/-- Settles O40: a draw writes no coordinate, I or memory, so the second one inverts the cells of the first back, and it
meets a 1 where the first met a 0. -/
theorem drawingTwiceRestoresTheScreen : Obligations.DrawingTwiceRestoresTheScreen := by
  intro s x y n hn hbounds hx hy
  obtain ⟨t, hexect, -, hcellt, -, -, hframe⟩ := drawXorsExactlyTheSprite s x y n hn hbounds
  have hindex : t.i.toNat = s.i.toNat := hframe.view_eq .index (by simp)
  have hcovers := hframe.spriteCovers_iff (x := x) (y := y) (by simp [hx]) (by simp [hy]) (by simp) (by simp) n
  obtain ⟨u, hexecu, -, hcellu, hset, hclear, -⟩ := drawXorsExactlyTheSprite t x y n hn (hindex ▸ hbounds)
  simp only [hcovers] at hcellu hset hclear
  refine ⟨t, u, hexect, hexecu, Framebuffer.ext_cell fun px py => ?restored, ?collides, fun h => hclear ?passes⟩
  case restored =>
    obtain ⟨hont, hofft⟩ := hcellt px py
    obtain ⟨honu, hoffu⟩ := hcellu px py
    by_cases hcov : s.SpriteCovers x y n px py
    · rw [honu hcov, hont hcov, Bool.not_not]
    · rw [hoffu hcov, hofft hcov]
  case collides =>
    rintro ⟨px, py, hcov, hcell⟩
    exact hset ⟨px, py, hcov, by rw [(hcellt px py).1 hcov, hcell, Bool.not_false]⟩
  case passes =>
    intro px py hcov
    rw [(hcellt px py).1 hcov, h px py hcov, Bool.not_true]

end Sys2Proof.Machine
end

section
/-! Keys and timers (45_keys_timers.md): the skips on a key, the key index out of range, both ends of the key wait, and the
moves between Vx and the timers. -/

namespace Sys2Proof.Machine

/-! Skips on a key (R170, R171, R178). -/

/-- A skip on a bit as it is held moves PC on by 2 exactly if the bit is 1 (R100). -/
theorem skipIf_bool (s : State) (b : Bool) :
    ∃ t, skipIf b s = .next t ∧ t.result = .ok ∧ ChangesOnlyList [.pc] s t ∧
      (b = true → t.pc = s.pc + 2) ∧ (b = false → t.pc = s.pc) := by
  obtain ⟨t, hskip, hok, hframe, htaken, hpassed⟩ := skipIf_of_iff s (c := b) Iff.rfl
  exact ⟨t, hskip, hok, hframe, htaken, fun hb => hpassed (ne_true_of_eq_false hb)⟩

/-- Settles O41: a Vx that names a key makes both instructions skips, on the bit of that key and on its complement. -/
theorem keySkips : Obligations.KeySkips := by
  intro s x k hk
  refine ⟨?pressed, ?notPressed⟩
  case pressed =>
    rw [exec, execSkp_of_key s x k hk]
    exact skipIf_bool s s.key[k]
  case notPressed =>
    rw [exec, execSknp_of_key s x k hk]
    obtain ⟨t, hskip, hok, hframe, htaken, hpassed⟩ := skipIf_bool s (! s.key[k])
    exact ⟨t, hskip, hok, hframe, fun h => htaken (by rw [h, Bool.not_false]),
      fun h => hpassed (by rw [h, Bool.not_true])⟩

/-- Settles O42: a Vx that names no key raises an abort-class error, with the word of its own instruction. -/
theorem keyIndexOutOfRangeAborts : Obligations.KeyIndexOutOfRangeAborts := by
  intro s x hx
  refine ⟨?pressed, ?notPressed⟩
  case pressed =>
    rw [exec, execSkp_of_ge s x hx, encode, formatXKK_eq_ofNat]
    exact raise_of_aborts s rfl
  case notPressed =>
    rw [exec, execSknp_of_ge s x hx, encode, formatXKK_eq_ofNat]
    exact raise_of_aborts s rfl

/-! The key wait (R173, R176, R177). -/

theorem execLdVxKey_of_highestKey (s : State) (x : Reg) {k : Key} (h : s.highestKey = some k) :
    execLdVxKey x s = finish (s.setReg x (BitVec.ofNat 8 k.val)) := by
  rw [execLdVxKey, h]

theorem execLdVxKey_of_noKey (s : State) (x : Reg) (h : s.highestKey = none) :
    execLdVxKey x s = finish (s.setPc (s.pc - 2)) := by
  rw [execLdVxKey, h]

/-- Settles O43: the key found is the highest pressed one, and its index fits in a byte. -/
theorem keyWaitTakesTheHighestKey : Obligations.KeyWaitTakesTheHighestKey := by
  intro s x k hk hhigher
  obtain ⟨t, hexec, hok, hreg, hframe⟩ := finish_setReg s x (BitVec.ofNat 8 k.val)
  have hkey : s.highestKey = some k := (s.highestKey_eq_some_iff k).mpr ⟨hk, hhigher⟩
  refine ⟨t, (execLdVxKey_of_highestKey s x hkey).trans hexec, hok, ?_, hframe⟩
  rw [hreg, BitVec.toNat_ofNat]
  exact Nat.mod_eq_of_lt (show k.val < 256 by omega)

/-- The word 0xF00A + x * 256 is the encoding of the key wait into Vx. -/
theorem decodeWord_keyWait {w : Word} {x : Reg} (hw : w.toNat = 0xF00A + x.val * 256) :
    decodeWord w = .ok (.ldVxKey x) := by
  have hword : w = encode (.ldVxKey x) := by
    apply BitVec.eq_of_toNat_eq
    rw [hw, encode, toNat_formatXKK 0xF (by decide) x 0x0A (by decide)]
    omega
  rw [hword]
  exact Laws.RoundTrip.ldVxKey x rfl

/-- With no key pressed the wait takes the advance of PC back, so a cycle at it writes the result alone (R99, R232). -/
theorem stepCycle_keyWait (l : Bool) {s : State} {x : Reg} (hhalted : s.halted = false) (hpc : s.pc.toNat ≤ 0xFFE)
    (hw : s.wordAtPc.toNat = 0xF00A + x.val * 256) (hkeys : ∀ k : Key, s.key[k] = false) :
    stepCycle l s = .next (s.setResult .ok) := by
  have hkey : s.advancePc.highestKey = none := s.advancePc.highestKey_eq_none_iff.mpr hkeys
  have hback : s.pc + 2 - 2 = s.pc := BitVec.add_sub_cancel _ _
  calc stepCycle l s
    _ = exec (.ldVxKey x) s.advancePc := stepCycle_of_decoded l hhalted hpc (decodeWord_keyWait hw)
    _ = finish (s.advancePc.setPc (s.pc + 2 - 2)) := execLdVxKey_of_noKey s.advancePc x hkey
    _ = .next (s.setResult .ok) := by rw [hback]; rfl

/-- Settles O44: with nothing scheduled the step is one cycle at the wait. -/
theorem keyWaitIsAFixedPoint : Obligations.KeyWaitIsAFixedPoint := by
  intro s x hs hw hkeys
  have hstep : step s = .next (s.setResult .ok) :=
    (step_of_nil hs.no_schedule).trans (stepCycle_keyWait false hs.not_halted hs.pc_le hw hkeys)
  exact ⟨_, hstep, rfl, changesOnly_setResult s _ .ok⟩

/-! The timers (R172, R174, R175). -/

/-- Settles O45: each is one write of the byte moved, to a register or to a timer. -/
theorem timerMoves : Obligations.TimerMoves := by
  intro s x
  refine ⟨?readDelay, ?writeDelay, ?writeSound⟩
  case readDelay =>
    obtain ⟨t, hexec, hok, hreg, hframe⟩ := finish_setReg s x s.dt
    exact ⟨t, hexec, hok, congrArg BitVec.toNat hreg, hframe⟩
  case writeDelay =>
    exact ⟨_, finish_eq (s.setDelay (s.reg x)), rfl, rfl,
      (changesOnly_setDelay s (List.mem_singleton_self _) (s.reg x)).setResult .ok⟩
  case writeSound =>
    exact ⟨_, finish_eq (s.setSound (s.reg x)), rfl, rfl,
      (changesOnly_setSound s (List.mem_singleton_self _) (s.reg x)).setResult .ok⟩

end Sys2Proof.Machine
end

section
/-! Unknown opcodes and the timers (60_exceptions.md): a fetched word that no row accepts, and any number of ticks
between two steps. -/

namespace Sys2Proof.Machine

/-! A word that matches no row (R192): PC alone has advanced (R92). -/

theorem changesOnly_advancePc {W : Component → Prop} (s : State) (h : W .pc) : ChangesOnly W s s.advancePc :=
  changesOnly_setPc s h _

/-- After a fetch in bounds PC + 2 does not wrap (R58). -/
theorem State.toNat_pc_advancePc {s : State} (hp : s.pc.toNat ≤ 0xFFE) :
    s.advancePc.pc.toNat = s.pc.toNat + 2 := by
  rw [State.advancePc_pc]
  bv_omega

/-- Settles O9: the word is rejected after PC has advanced, by an error that is not of the abort class. -/
theorem unknownOpcodeKeepsTheIncrement : Obligations.UnknownOpcodeKeepsTheIncrement := by
  intro s rest hnext hhalted hpc hrows
  obtain ⟨l, hstep⟩ := step_of_nextIsStep hnext
  have hdecode : decodeWord s.wordAtPc = .error (.unknownOpcode s.wordAtPc) :=
    decodeWord_of_not_matched fun ⟨r, hr, ha⟩ => hrows r hr (beq_iff_eq.mp ha)
  have hraise := stepCycle_of_unknown l (s := { s with schedule := rest }) hhalted hpc hdecode
  have hframe : ChangesOnlyList [.pc] { s with schedule := rest } (State.advancePc { s with schedule := rest }) :=
    changesOnly_advancePc _ (List.mem_singleton_self _)
  exact ⟨_, (hstep.trans hraise).trans (raise_eq _ _), rfl, State.toNat_pc_advancePc hpc,
    hframe.trans (changesOnly_raise _ _ (fun h => nomatch h))⟩

/-! `tick_timers` (R205): what one tick does to each timer, and its frame. -/

@[simp] theorem State.toNat_dt_afterTick (s : State) : s.afterTick.dt.toNat = s.dt.toNat - 1 := toNat_countDown s.dt

@[simp] theorem State.toNat_st_afterTick (s : State) : s.afterTick.st.toNat = s.st.toNat - 1 := toNat_countDown s.st

theorem changesOnly_afterTick (s : State) : ChangesOnlyList [.delay, .sound] s s.afterTick :=
  ((changesOnly_setDelay s (by simp) _).trans (changesOnly_setSound _ (by simp) _)).setResult .ok

/-- Settles O56: the truncated subtraction of `toNat_countDown`, read off for a timer above 0 and for one at 0. -/
theorem tickLowersNonzeroTimers : Obligations.TickLowersNonzeroTimers := by
  intro s
  have hdt := s.toNat_dt_afterTick
  have hst := s.toNat_st_afterTick
  exact ⟨s.afterTick, rfl, rfl, by omega, by omega, by omega, by omega, changesOnly_afterTick s⟩

/-! Several ticks in a row (R206, R231). -/

/-- A run whose first command answers `t` goes on from `t`. -/
theorem run_succ_of_step {s t : State} (n : Nat) (h : step s = .next t) : run (n + 1) s = run n t := by
  rw [run, h]

theorem step_of_tick {s : State} {rest : List Command} (h : s.schedule = .tickTimers :: rest) :
    step s = .next (State.afterTick { s with schedule := rest }) := step_of_cons h

/-- Settles O57, by induction on the number of ticks: the first lowers each timer by one, and the others run from the
state it leaves. -/
theorem ticksCountDownToZero : Obligations.TicksCountDownToZero := by
  intro n s rest hsched
  induction n generalizing s with
  | zero =>
    obtain rfl : s.schedule = rest := hsched
    exact ⟨s, rfl, rfl, rfl, rfl, ChangesOnly.refl _ s⟩
  | succ n ih =>
    have hfirst := run_succ_of_step n (step_of_tick hsched)
    obtain ⟨t, hrun, hrest, hdt, hst, hframe⟩ :=
      ih (State.afterTick { s with schedule := List.replicate n .tickTimers ++ rest }) rfl
    have htick := changesOnly_afterTick { s with schedule := rest }
    refine ⟨t, hfirst.trans hrun, hrest, ?delay, ?sound, htick.trans hframe⟩
    case delay => rw [hdt, State.toNat_dt_afterTick, Nat.sub_sub, Nat.add_comm 1 n]
    case sound => rw [hst, State.toNat_st_afterTick, Nat.sub_sub, Nat.add_comm 1 n]

end Sys2Proof.Machine
end

section
/-! A frame read as an equation: PC, a byte of memory and `halted` outside it (R12). -/

namespace Sys2Proof.Machine

section
variable {W : Component → Prop} {s t : State} (h : ChangesOnly W s t)
include h

theorem ChangesOnly.pc_eq (hpc : ¬ W .pc) : t.pc = s.pc := BitVec.eq_of_toNat_eq (h.view_eq .pc hpc)

theorem ChangesOnly.byte_eq {a : Nat} (ha : ¬ W (.byte a)) : t.mem.read a = s.mem.read a :=
  BitVec.eq_of_toNat_eq (h.view_eq (.byte a) ha)

theorem ChangesOnly.halted_eq (hh : ¬ W .halted) : t.halted = s.halted :=
  Function.LeftInverse.injective Bool.ofNat_toNat (h.view_eq .halted hh)

/-- The word at PC is the same where PC and memory are. -/
theorem ChangesOnly.wordAtPc_eq (hpc : ¬ W .pc) (hbyte : ∀ a, ¬ W (.byte a)) : t.wordAtPc = s.wordAtPc := by
  rw [State.wordAtPc, h.pc_eq hpc, h.byte_eq (hbyte _), h.byte_eq (hbyte _), State.wordAtPc]

end

end Sys2Proof.Machine
end

section
/-! Construction, `reset` and `load_program` (70_reset_and_hazards.md): the values each leaves in every piece of state. -/

namespace Sys2Proof.Machine

/-! The values of R48, which construction and `reset` share. -/

/-- At power-on every piece of state but memory and PC is 0. -/
theorem State.view_reset_eq_zero {c : Component} (hbyte : ∀ a, c ≠ .byte a) (hpc : c ≠ .pc) :
    State.reset.view c = 0 := by
  cases c with
  | byte a => exact absurd rfl (hbyte a)
  | pc => exact absurd rfl hpc
  | reg r => simp [State.reg, State.reset]
  | slot j => simp [State.reset]
  | pixel px py => simp [State.reset]
  | key k => simp [State.reset]
  | _ => rfl

/-! Construction (R220). -/

/-- The font, and 0 above it (R53). -/
theorem State.read_afterConstruct (fontset : Vector Byte 80) (s : State) (a : Nat) :
    (s.afterConstruct fontset).mem.read a = if ha : a < 80 then fontset[a] else 0 := by
  have hlen : fontset.toList.length = 80 := fontset.length_toList
  have hread := Memory.read_writeBytes Memory.wf_nil (a := 0) (bs := fontset.toList) (by omega) a
  refine hread.trans ?_
  by_cases ha : a < 80
  · rw [dif_pos (by omega), dif_pos ha]
    simp
  · rw [dif_neg (by omega), dif_neg ha]
    exact Memory.unlisted_of_ge (by omega)

/-- Settles O52: outside memory the new core is the one at power-on. -/
theorem constructionValues : Obligations.ConstructionValues := by
  intro s fontset rest hsched
  refine ⟨_, step_of_cons hsched, rfl, rfl, rfl, rfl, fun a ha => ?font, fun c hfont hpc => ?zero⟩
  case font => rw [State.read_afterConstruct, dif_pos ha]
  case zero =>
    cases c with
    | byte a =>
      have ha : ¬ a < 80 := fun h => hfont a h rfl
      rw [State.view_byte, State.read_afterConstruct, dif_neg ha]
      rfl
    | _ => exact State.view_reset_eq_zero (by simp) hpc

/-! `reset` (R221 to R223). -/

theorem step_of_reset {s : State} {rest : List Command} (h : s.schedule = .reset :: rest) :
    step s = .next (State.afterReset { s with schedule := rest }) := step_of_cons h

theorem State.read_afterReset (s : State) (a : Nat) :
    s.afterReset.mem.read a = if a < 80 then s.mem.read a else 0 := s.mem.read_clearAboveFont a

@[simp] theorem State.afterReset_afterReset (s : State) : s.afterReset.afterReset = s.afterReset := by
  simp [State.afterReset]

/-- Settles O53: outside memory and KEY the core is the one at power-on. -/
theorem resetValues : Obligations.ResetValues := by
  intro s rest hsched _
  refine ⟨_, step_of_reset hsched, rfl, rfl, rfl, rfl, fun a ha => ?font, fun k => rfl, fun c hfont hkey hpc => ?zero,
    congrArg Host.Outcome.next (State.afterReset_afterReset _)⟩
  case font => rw [State.read_afterReset, if_pos ha]
  case zero =>
    cases c with
    | byte a =>
      have ha : ¬ a < 80 := fun h => hfont a h rfl
      rw [State.view_byte, State.read_afterReset, if_neg ha]
      rfl
    | key k => exact absurd rfl (hkey k)
    | _ => exact State.view_reset_eq_zero (by simp) hpc

/-! `load_program` (R224, R225). -/

/-- Byte k of a stored list reads back at its place (R61). -/
theorem Memory.read_writeBytes_add {m : Memory} (hm : m.wf = true) {a : Nat} {bs : List Byte}
    (h : a + bs.length ≤ 0x1000) {k : Nat} (hk : k < bs.length) : (m.writeBytes a bs).read (a + k) = bs[k] := by
  rw [Memory.read_writeBytes hm h, dif_pos (by omega)]
  simp only [Nat.add_sub_cancel_left]

/-- A store of several bytes changes those bytes alone. -/
theorem changesOnly_writeBytes {s : State} (hm : s.mem.wf = true) {a : Nat} {bs : List Byte}
    (h : a + bs.length ≤ 0x1000) :
    ChangesOnly (fun c => ∃ k, k < bs.length ∧ c = .byte (a + k)) s (s.setMem (s.mem.writeBytes a bs)) := by
  refine changesOnly_setMem s _ fun b hb => ?_
  rw [Memory.read_writeBytes hm h, dif_neg]
  rintro ⟨hlo, hhi⟩
  exact hb ⟨b - a, by omega, by rw [Nat.add_sub_cancel' hlo]⟩

/-- An accepted image is the only thing that changes. -/
theorem changesOnly_afterLoad {s : State} (hm : s.mem.wf = true) {bytes : List Byte} (h : bytes.length ≤ 3584) :
    ChangesOnly (fun c => ∃ k, k < bytes.length ∧ c = .byte (0x200 + k)) s (s.afterLoad bytes) := by
  rw [State.afterLoad_of_le s bytes h]
  exact (changesOnly_writeBytes hm (by omega)).setResult .ok

/-- Settles O55: an image of at most 3584 bytes fits from 0x200 on, and a longer one sets the result alone. -/
theorem loadProgramCopiesTheImage : Obligations.LoadProgramCopiesTheImage := by
  intro s bytes hm
  refine ⟨fun h => ⟨s.afterLoad bytes, rfl, ?ok, fun k hk => ?image, changesOnly_afterLoad hm h⟩,
    fun h => ⟨s.afterLoad bytes, rfl, ?refused⟩⟩
  case ok => rw [State.afterLoad_of_le s bytes h, State.setResult_result]
  case image =>
    rw [State.afterLoad_of_le s bytes h]
    exact Memory.read_writeBytes_add hm (by omega) hk
  case refused =>
    rw [State.afterLoad_of_gt s bytes h]
    exact ⟨rfl, changesOnly_setResult s _ _⟩

/-- After a `reset` the program area reads 0 and the font reads as before it (R223). -/
theorem step_reset_erases {s : State} {rest : List Command} (h : s.schedule = .reset :: rest) :
    ∃ t, step s = .next t ∧ (∀ a, 0x200 ≤ a → a < 0x1000 → t.mem.read a = 0) ∧
      (∀ a, a < 80 → t.mem.read a = s.mem.read a) := by
  refine ⟨_, step_of_reset h, fun a hlo _ => ?program, fun a ha => ?font⟩
  case program => rw [State.read_afterReset, if_neg (by omega)]
  case font => rw [State.read_afterReset, if_pos ha]

/-- Settles O54: an image loaded before the `reset` lies above the font, so the font it keeps is the first one. -/
theorem resetErasesTheProgram : Obligations.ResetErasesTheProgram := by
  refine ⟨fun s rest hsched => step_reset_erases hsched, fun s bytes rest hm hlen hsched => ?_⟩
  have hload := changesOnly_afterLoad (s := { s with schedule := .reset :: rest }) hm hlen
  obtain ⟨u, hreset, hprogram, hfont⟩ := step_reset_erases hload.schedule_eq
  refine ⟨_, u, step_of_cons hsched, hreset, hprogram, fun a ha => (hfont a ha).trans (hload.byte_eq ?_)⟩
  rintro ⟨k, -, hk⟩
  obtain rfl := Component.byte.inj hk
  omega

end Sys2Proof.Machine
end

section
/-! A timer read back after ticks (R231): Fx15, the ticks and Fy07, with nothing between them that moves PC, memory or
`halted`. -/

namespace Sys2Proof.Machine

/-- A run in two parts. -/
theorem run_add_of_run {m : Nat} {s t : State} (n : Nat) (h : run m s = .next t) : run (m + n) s = run n t := by
  induction m generalizing s with
  | zero => cases h; rw [Nat.zero_add]
  | succ m ih =>
    obtain ⟨u, hu⟩ := everyStepAnswersANextState s
    rw [run_succ_of_step m hu] at h
    rw [Nat.add_right_comm, run_succ_of_step (m + n) hu, ih h]

section
variable {s : State} {l : Bool} {rest : List Command} (hhalted : s.halted = false) (hpc : s.pc.toNat ≤ 0xFFE)
  (hsched : s.schedule = .step l :: rest)
include hhalted hpc hsched

/-- A scheduled step at the word of an instruction runs that instruction (R90, R92). -/
theorem step_of_wordAtPc {i : Instr} (hi : i.wellFormed = true) (hw : s.wordAtPc = encode i) :
    step s = exec i (State.advancePc { s with schedule := rest }) := by
  have hdecode : decodeWord s.wordAtPc = .ok i := hw ▸ Laws.decodeWord_encode i hi
  exact (stepRunsTheDecodedInstruction s i l rest hhalted hpc hdecode).2 hsched

/-- Fx15 (R174), and the word the next step fetches. -/
theorem step_of_writeDelay {x : Reg} (hw : s.wordAtPc = encode (.ldDtVx x)) :
    ∃ t, step s = .next t ∧ t.schedule = rest ∧ t.dt = s.reg x ∧ t.halted = false ∧ t.pc.toNat = s.pc.toNat + 2 ∧
      t.wordAtPc = (s.setPc (s.pc + 2)).wordAtPc :=
  ⟨_, step_of_wordAtPc hhalted hpc hsched rfl hw, rfl, rfl, hhalted, State.toNat_pc_advancePc hpc, rfl⟩

/-- Fx07 (R172). -/
theorem step_of_readDelay {x : Reg} (hw : s.wordAtPc = encode (.ldVxDt x)) :
    ∃ t, step s = .next t ∧ t.result = .ok ∧ t.reg x = s.dt ∧ t.pc.toNat = s.pc.toNat + 2 ∧ t.schedule = rest :=
  ⟨_, step_of_wordAtPc hhalted hpc hsched rfl hw, rfl, State.reg_setReg_same _ x s.dt,
    State.toNat_pc_advancePc hpc, rfl⟩

end

/-- Settles O58: the ticks change the timers alone, so Fy07 is fetched where Fx15 left PC, and reads the DT they left. -/
theorem delayReadBackDependsOnTheTicks : Obligations.DelayReadBackDependsOnTheTicks := by
  intro s x y n l l' rest hhalted hpc hwrite hread hsched
  obtain ⟨u, hfirst, hsched', hdt, hhalt, hpcu, hword⟩ := step_of_writeDelay hhalted (by omega) hsched hwrite
  obtain ⟨v, hticks, hlast, hcount, -, hframe⟩ := ticksCountDownToZero n u (.step l' :: rest) hsched'
  have hpcv : v.pc.toNat = u.pc.toNat := hframe.view_eq .pc (by simp)
  have hwordv : v.wordAtPc = u.wordAtPc := hframe.wordAtPc_eq (by simp) (by simp)
  obtain ⟨t, hsecond, hok, hreg, hpct, hrest⟩ :=
    step_of_readDelay ((hframe.halted_eq (by simp)).trans hhalt) (by omega) hlast ((hwordv.trans hword).trans hread)
  refine ⟨t, ?run, hok, ?value, by omega, hrest⟩
  case run =>
    calc run (n + 2) s
      _ = run (n + 1) u := run_succ_of_step (n + 1) hfirst
      _ = run 1 v := run_add_of_run 1 hticks
      _ = .next t := run_succ_of_step 0 hsecond
  case value => rw [hreg, hcount, hdt]

end Sys2Proof.Machine
end
